-- ==== Sys2Proof/Word.lean ====
section
/-! DEFINITION. The word types of the machine: the 16-bit bus word of rule R40 and parameter WORD (00_scope.md
section 4), and the 24-bit code word of the non-normative annex (30_encoding.md section 7). -/

namespace Sys2Proof

/-- A value on the DMD bus or the R bus, and the content of a 16-bit register (R40, 00_scope.md section 4). -/
abbrev Word := BitVec 16

/-- A binary code of the annex (30_encoding.md section 7). PRESUMED: no source document contains one (log 11). -/
abbrev CodeWord := BitVec 24

end Sys2Proof
end

