-- ==== Sys2Proof/Config.lean ====
section
/-! DEFINITION. The implementation parameters of 00_scope.md section 4 that an operation's effect depends on.
The spec leaves them OPEN ("the model takes it as an argument"), so they are plain data which State carries and no
operation writes (log 4): a statement about every state is a statement about every choice of them. -/

namespace Sys2Proof

/-- MAC_UU_EXTEND: how a 32-bit unsigned by unsigned product is widened to 40 bits (R123, D14). -/
inductive UuExtend where
  /-- copy bit 31, the literal reading of the source and the value the spec takes -/
  | sign
  /-- fill with zeros, the arithmetically exact alternative -/
  | zero
deriving DecidableEq, Repr

/-- ASTAT_LAYOUT: a map from the eight flags to bit positions 0..15 of ASTAT on the DMD bus (R20, D21). -/
structure AstatLayout where
  az : Fin 16
  an : Fin 16
  av : Fin 16
  ac : Fin 16
  as : Fin 16
  aq : Fin 16
  mv : Fin 16
  ss : Fin 16
deriving DecidableEq, Repr

/-- The eight positions of a layout, in the order AZ AN AV AC AS AQ MV SS. -/
def AstatLayout.positions (l : AstatLayout) : List (Fin 16) :=
  [l.az, l.an, l.av, l.ac, l.as, l.aq, l.mv, l.ss]

/-- A layout gives each flag a bit of its own. -/
def AstatLayout.valid (l : AstatLayout) : Bool := decide l.positions.Nodup

/-- The layout of the real family that R20 offers. PRESUMED: from general knowledge, G4 (log 5). -/
def AstatLayout.family : AstatLayout :=
  { az := 0, an := 1, av := 2, ac := 3, as := 4, aq := 5, mv := 6, ss := 7 }

/-- The parameters of 00_scope.md section 4 that are not fixed widths and not launch values. -/
structure Params where
  /-- HAS_BIASRND: whether the member has the biased-rounding bit (R22) -/
  hasBiasrnd : Bool
  /-- MAC_UU_EXTEND (R123) -/
  macUuExtend : UuExtend
  /-- ASTAT_LAYOUT (R20) -/
  astatLayout : AstatLayout
deriving DecidableEq, Repr

/-- The implementation `State.reset` stands for. DESIGN CHOICE (log 5): a member with BIASRND, the value `sign` the
spec takes (D14), the family's ASTAT layout (PRESUMED, G4). No statement for every state rests on it. -/
def Params.standard : Params :=
  { hasBiasrnd := true, macUuExtend := .sign, astatLayout := AstatLayout.family }

end Sys2Proof
end

