-- ==== Sys2Proof/Syntax.lean ====
section
/-! DEFINITION. The operations of the computational units (30_encoding.md rules R51 to R58): operand classes,
modifiers, and one constructor of `Instr` for each row of spec/opcode_table.json, in the table's order. -/

namespace Sys2Proof

/-- `axop`: the ALU X operands (R51, R11). -/
inductive Axop where
  | ax0 | ax1 | ar | mr0 | mr1 | mr2 | sr0 | sr1
deriving DecidableEq, Repr

/-- `ayop`: the ALU Y operands (R51, R11). -/
inductive Ayop where
  | ay0 | ay1 | af
deriving DecidableEq, Repr

/-- `adst`: the ALU destinations (R51, R11). -/
inductive Adst where
  | ar | af
deriving DecidableEq, Repr

/-- `mxop`: the MAC X operands (R51, R14). -/
inductive Mxop where
  | mx0 | mx1 | ar | mr0 | mr1 | mr2 | sr0 | sr1
deriving DecidableEq, Repr

/-- `myop`: the MAC Y operands (R51, R14). -/
inductive Myop where
  | my0 | my1 | mf
deriving DecidableEq, Repr

/-- `mdst`: the MAC destinations (R51, R14). -/
inductive Mdst where
  | mr | mf
deriving DecidableEq, Repr

/-- `sxop`: the inputs of the shifter array and of the exponent detector (R51, R17). -/
inductive Sxop where
  | si | ar | mr0 | mr1 | mr2 | sr0 | sr1
deriving DecidableEq, Repr

/-- `dreg`: the registers that connect to the DMD bus (R51). AF and MF are not among them (R24). -/
inductive Dreg where
  | ax0 | ax1 | ay0 | ay1 | ar | mx0 | mx1 | my0 | my1 | mr0 | mr1 | mr2 | si | se | sb | sr0 | sr1
deriving DecidableEq, Repr

/-- `fmt`: the operand formats of a multiplication, first letter X, second letter Y; RND rounds (R58, R121). -/
inductive Fmt where
  | ss | su | us | uu | rnd
deriving DecidableEq, Repr

/-- `hl`: the reference point of a shift, SR1 or SR0 (R58, R152). -/
inductive HiLo where
  | hi | lo
deriving DecidableEq, Repr

/-- The mode bits that MODE names (R185). -/
inductive Mode where
  | secReg | avLatch | arSat | mMode
deriving DecidableEq, Repr

/-- The operations, one constructor for each row of spec/opcode_table.json. -/
inductive Instr where
  /-- ADD, `adst = axop + ayop;` (R77) -/
  | add (d : Adst) (x : Axop) (y : Ayop)
  /-- ADDC, `adst = axop + ayop + C;` (R78) -/
  | addc (d : Adst) (x : Axop) (y : Ayop)
  /-- SUB, `adst = axop - ayop;` (R79) -/
  | sub (d : Adst) (x : Axop) (y : Ayop)
  /-- SUBB, `adst = axop - ayop + C - 1;` (R80) -/
  | subb (d : Adst) (x : Axop) (y : Ayop)
  /-- RSUB, `adst = ayop - axop;` (R81) -/
  | rsub (d : Adst) (y : Ayop) (x : Axop)
  /-- RSUBB, `adst = ayop - axop + C - 1;` (R82) -/
  | rsubb (d : Adst) (y : Ayop) (x : Axop)
  /-- NEGX, `adst = - axop;` (R83) -/
  | negx (d : Adst) (x : Axop)
  /-- NEGY, `adst = - ayop;` (R84) -/
  | negy (d : Adst) (y : Ayop)
  /-- INC, `adst = ayop + 1;` (R85) -/
  | inc (d : Adst) (y : Ayop)
  /-- DEC, `adst = ayop - 1;` (R86) -/
  | dec (d : Adst) (y : Ayop)
  /-- PASSX, `adst = PASS axop;` (R87) -/
  | passx (d : Adst) (x : Axop)
  /-- PASSY, `adst = PASS ayop;` (R88) -/
  | passy (d : Adst) (y : Ayop)
  /-- PASS0, `adst = PASS 0;`, also written `adst = 0;` (R89) -/
  | pass0 (d : Adst)
  /-- ABS, `adst = ABS axop;` (R90) -/
  | abs (d : Adst) (x : Axop)
  /-- AND, `adst = axop AND ayop;` (R91) -/
  | logicAnd (d : Adst) (x : Axop) (y : Ayop)
  /-- OR, `adst = axop OR ayop;` (R92) -/
  | logicOr (d : Adst) (x : Axop) (y : Ayop)
  /-- XOR, `adst = axop XOR ayop;` (R93) -/
  | logicXor (d : Adst) (x : Axop) (y : Ayop)
  /-- NOTX, `adst = NOT axop;` (R94) -/
  | notx (d : Adst) (x : Axop)
  /-- NOTY, `adst = NOT ayop;` (R95) -/
  | noty (d : Adst) (y : Ayop)
  /-- DIVS, `DIVS ayop, axop;`; ill formed with AY0 (R110, R56) -/
  | divs (y : Ayop) (x : Axop)
  /-- DIVQ, `DIVQ axop;` (R111) -/
  | divq (x : Axop)
  /-- MUL, `mdst = mxop * myop (fmt);` (R127) -/
  | mul (d : Mdst) (x : Mxop) (y : Myop) (f : Fmt)
  /-- MACC, `mdst = MR + mxop * myop (fmt);` (R128) -/
  | macc (d : Mdst) (x : Mxop) (y : Myop) (f : Fmt)
  /-- MSUB, `mdst = MR - mxop * myop (fmt);` (R129) -/
  | msub (d : Mdst) (x : Mxop) (y : Myop) (f : Fmt)
  /-- MRCLR, `MR = 0;` (R133) -/
  | mrclr
  /-- SATMR, `SAT MR;` (R136) -/
  | satmr
  /-- LSHIFT_IMM, `SR = [SR OR] LSHIFT sxop BY <exp> (hl);` (R158) -/
  | lshiftImm (x : Sxop) (e : BitVec 8) (h : HiLo) (srOr : Bool)
  /-- ASHIFT_IMM, `SR = [SR OR] ASHIFT sxop BY <exp> (hl);` (R159) -/
  | ashiftImm (x : Sxop) (e : BitVec 8) (h : HiLo) (srOr : Bool)
  /-- LSHIFT_SE, `SR = [SR OR] LSHIFT sxop (hl);` (R160) -/
  | lshiftSe (x : Sxop) (h : HiLo) (srOr : Bool)
  /-- ASHIFT_SE, `SR = [SR OR] ASHIFT sxop (hl);` (R161) -/
  | ashiftSe (x : Sxop) (h : HiLo) (srOr : Bool)
  /-- NORM, `SR = [SR OR] NORM sxop (hl);` (R162) -/
  | norm (x : Sxop) (h : HiLo) (srOr : Bool)
  /-- EXP_HI, `SE = EXP sxop (HI);` (R165) -/
  | expHi (x : Sxop)
  /-- EXP_HIX, `SE = EXP sxop (HIX);` (R166) -/
  | expHix (x : Sxop)
  /-- EXP_LO, `SE = EXP sxop (LO);` (R167) -/
  | expLo (x : Sxop)
  /-- EXPADJ, `SB = EXPADJ sxop;` (R168) -/
  | expadj (x : Sxop)
  /-- LOAD, `dreg = <data>;` (R180) -/
  | load (d : Dreg) (data : Word)
  /-- MOVE, `dreg = dreg;`, destination first (R181) -/
  | move (d : Dreg) (src : Dreg)
  /-- ASTATW, `ASTAT = <data>;` (R184) -/
  | astatw (data : Word)
  /-- MODE, `ENA mode;` (true) or `DIS mode;` (false) (R185) -/
  | mode (m : Mode) (ena : Bool)
  /-- BIAS, `BIAS b`, the pseudo-operation of the program list (R186) -/
  | bias (b : Bool)
deriving DecidableEq, Repr

end Sys2Proof
end

