-- ==== Sys2Proof/Decode.lean ====
section
/-! DEFINITION. The decoder and the encoder of the 24-bit words of the annex (30_encoding.md section 7). PRESUMED:
the annex is non-normative, "supplied from outside the sources" (log 11); no meaning of an operation depends on it.
The decoder is total and rejects by name; the encoder is written from the same tables, not from the decoder. -/

namespace Sys2Proof

/-- Why a 24-bit word is no operation of this spec (R56, R205). -/
inductive DecodeError where
  /-- the upper bits match no pattern of the annex -/
  | noPattern
  /-- a bit that its row's pattern fixes has the other value -/
  | fixedBit
  /-- COND is not 1111: conditional execution is not modelled (D11, log 12) -/
  | conditional
  /-- AMF 00000, "no operation", which no row of the table has -/
  | noFunction
  /-- YY names no Y operand of the row (11 in general; 00 too for DIVS) -/
  | noYOperand
  /-- XXX = 001, which is no shifter input -/
  | noShifterInput
  /-- the register group and code name no register of class `dreg` -/
  | noRegister
  /-- a mode-control word that does not change exactly one of the four modes (log 13) -/
  | notOneMode
deriving DecidableEq, Repr

/-- A field of a code word: `len` bits from bit `lo` upward (R4: bit 0 is the least significant). -/
def codeField (w : CodeWord) (lo len : Nat) : BitVec len := w.extractLsb' lo len

/-! ## Codes of the operand classes, from code to operand -/

/-- XXX for the ALU. -/
def axopOfCode (c : BitVec 3) : Axop :=
  match c.toNat with
  | 0 => .ax0
  | 1 => .ax1
  | 2 => .ar
  | 3 => .mr0
  | 4 => .mr1
  | 5 => .mr2
  | 6 => .sr0
  | _ => .sr1

/-- XXX for the MAC. -/
def mxopOfCode (c : BitVec 3) : Mxop :=
  match c.toNat with
  | 0 => .mx0
  | 1 => .mx1
  | 2 => .ar
  | 3 => .mr0
  | 4 => .mr1
  | 5 => .mr2
  | 6 => .sr0
  | _ => .sr1

/-- XXX for the shifter; 001 is no input. -/
def sxopOfCode (c : BitVec 3) : Option Sxop :=
  match c.toNat with
  | 0 => some .si
  | 1 => none
  | 2 => some .ar
  | 3 => some .mr0
  | 4 => some .mr1
  | 5 => some .mr2
  | 6 => some .sr0
  | _ => some .sr1

/-- YY for the ALU; 11 is the constant zero, no Y operand. -/
def ayopOfCode (c : BitVec 2) : Option Ayop :=
  match c.toNat with
  | 0 => some .ay0
  | 1 => some .ay1
  | 2 => some .af
  | _ => none

/-- YY for the MAC; 11 is the constant zero, no Y operand. -/
def myopOfCode (c : BitVec 2) : Option Myop :=
  match c.toNat with
  | 0 => some .my0
  | 1 => some .my1
  | 2 => some .mf
  | _ => none

/-- A register by its group and code: group 00 the DREG codes, group 11 code 0110 SB. -/
def dregOfCode (group : BitVec 2) (c : BitVec 4) : Option Dreg :=
  if group = 0#2 then
    match c.toNat with
    | 0 => some .ax0
    | 1 => some .ax1
    | 2 => some .mx0
    | 3 => some .mx1
    | 4 => some .ay0
    | 5 => some .ay1
    | 6 => some .my0
    | 7 => some .my1
    | 8 => some .si
    | 9 => some .se
    | 10 => some .ar
    | 11 => some .mr0
    | 12 => some .mr1
    | 13 => some .mr2
    | 14 => some .sr0
    | _ => some .sr1
  else if group = 3#2 ∧ c = 6#4 then some .sb
  else none

/-- Z for the ALU: 0 the result register, 1 the feedback register. -/
def adstOfCode (z : BitVec 1) : Adst := if z = 0#1 then .ar else .af

/-- Z for the MAC. -/
def mdstOfCode (z : BitVec 1) : Mdst := if z = 0#1 then .mr else .mf

/-- The HI/LO bit of an SF code. -/
def hiLoOfCode (b : BitVec 1) : HiLo := if b = 0#1 then .hi else .lo

/-! ## The decoder, one definition for each word type of the annex -/

/-- The ALU half of the AMF codes, 10000 to 11111, with YY and XXX (annex; opcode_table.json's constraints). -/
def decodeAlu (amf : BitVec 5) (z : BitVec 1) (yy : BitVec 2) (xxx : BitVec 3) : Except DecodeError Instr :=
  let d := adstOfCode z
  let x := axopOfCode xxx
  let withY (k : Ayop → Instr) : Except DecodeError Instr :=
    match ayopOfCode yy with
    | some y => .ok (k y)
    | none => .error .noYOperand
  let onlyY (k : Ayop → Instr) : Except DecodeError Instr :=
    if xxx = 0#3 then withY k else .error .fixedBit
  let onlyX (k : Instr) : Except DecodeError Instr :=
    if yy = 0#2 then .ok k else .error .fixedBit
  match amf.toNat with
  | 16 =>
    if yy = 3#2 then (if xxx = 0#3 then .ok (.pass0 d) else .error .fixedBit)
    else onlyY (fun y => .passy d y)
  | 17 => onlyY (fun y => .inc d y)
  | 18 => withY (fun y => .addc d x y)
  | 19 => if yy = 3#2 then .ok (.passx d x) else withY (fun y => .add d x y)
  | 20 => onlyY (fun y => .noty d y)
  | 21 => onlyY (fun y => .negy d y)
  | 22 => withY (fun y => .subb d x y)
  | 23 => withY (fun y => .sub d x y)
  | 24 => onlyY (fun y => .dec d y)
  | 25 => if yy = 3#2 then .ok (.negx d x) else withY (fun y => .rsub d y x)
  | 26 => withY (fun y => .rsubb d y x)
  | 27 => onlyX (.notx d x)
  | 28 => withY (fun y => .logicAnd d x y)
  | 29 => withY (fun y => .logicOr d x y)
  | 30 => withY (fun y => .logicXor d x y)
  | 31 => onlyX (.abs d x)
  | _ => .error .noFunction

/-- The MAC half of the AMF codes, 00001 to 01111, with YY and XXX (annex; opcode_table.json's constraints). -/
def decodeMac (amf : BitVec 5) (z : BitVec 1) (yy : BitVec 2) (xxx : BitVec 3) : Except DecodeError Instr :=
  let d := mdstOfCode z
  let x := mxopOfCode xxx
  let withY (k : Myop → Instr) : Except DecodeError Instr :=
    match myopOfCode yy with
    | some y => .ok (k y)
    | none => .error .noYOperand
  match amf.toNat with
  | 1 => withY (fun y => .mul d x y .rnd)
  | 2 => withY (fun y => .macc d x y .rnd)
  | 3 => withY (fun y => .msub d x y .rnd)
  | 4 =>
    if yy = 3#2 then (if z = 0#1 ∧ xxx = 0#3 then .ok .mrclr else .error .fixedBit)
    else withY (fun y => .mul d x y .ss)
  | 5 => withY (fun y => .mul d x y .su)
  | 6 => withY (fun y => .mul d x y .us)
  | 7 => withY (fun y => .mul d x y .uu)
  | 8 => withY (fun y => .macc d x y .ss)
  | 9 => withY (fun y => .macc d x y .su)
  | 10 => withY (fun y => .macc d x y .us)
  | 11 => withY (fun y => .macc d x y .uu)
  | 12 => withY (fun y => .msub d x y .ss)
  | 13 => withY (fun y => .msub d x y .su)
  | 14 => withY (fun y => .msub d x y .us)
  | 15 => withY (fun y => .msub d x y .uu)
  | _ => .error .noFunction

/-- Conditional ALU/MAC words, `00100 Z AMF YY XXX 0000 COND`. -/
def decodeCompute (w : CodeWord) : Except DecodeError Instr :=
  if codeField w 4 4 ≠ 0#4 then .error .fixedBit
  else if codeField w 0 4 ≠ 15#4 then .error .conditional
  else if codeField w 17 1 = 1#1 then
    decodeAlu (codeField w 13 5) (codeField w 18 1) (codeField w 11 2) (codeField w 8 3)
  else
    decodeMac (codeField w 13 5) (codeField w 18 1) (codeField w 11 2) (codeField w 8 3)

/-- DIVS words, `0000 0110 000 YY XXX 0000 0000`; YY is 01 or 10 only. -/
def decodeDivs (w : CodeWord) : Except DecodeError Instr :=
  if codeField w 13 3 ≠ 0#3 ∨ codeField w 0 8 ≠ 0#8 then .error .fixedBit
  else
    match ayopOfCode (codeField w 11 2) with
    | some .ay1 => .ok (.divs .ay1 (axopOfCode (codeField w 8 3)))
    | some .af => .ok (.divs .af (axopOfCode (codeField w 8 3)))
    | some .ay0 => .error .noYOperand
    | none => .error .noYOperand

/-- DIVQ words, `0000 0111 0001 0 XXX 0000 0000`. -/
def decodeDivq (w : CodeWord) : Except DecodeError Instr :=
  if codeField w 11 5 ≠ 2#5 ∨ codeField w 0 8 ≠ 0#8 then .error .fixedBit
  else .ok (.divq (axopOfCode (codeField w 8 3)))

/-- SAT MR, the one word `0000 0101 0000 0000 0000 0000`. -/
def decodeSat (w : CodeWord) : Except DecodeError Instr :=
  if codeField w 0 16 ≠ 0#16 then .error .fixedBit else .ok .satmr

/-- Shift-immediate words, `0000 1111 0 SF XXX EEEEEEEE`; SF 0000 to 0111 only (LSHIFT and ASHIFT). -/
def decodeShiftImm (w : CodeWord) : Except DecodeError Instr :=
  match sxopOfCode (codeField w 8 3) with
  | none => .error .noShifterInput
  | some x =>
    let e := codeField w 0 8
    let h := hiLoOfCode (codeField w 12 1)
    let o := decide (codeField w 11 1 = 1#1)
    match (codeField w 13 3).toNat with
    | 0 => .ok (.lshiftImm x e h o)
    | 1 => .ok (.ashiftImm x e h o)
    | _ => .error .fixedBit

/-- Conditional-shift words, `0000 1110 0 SF XXX 0000 COND`. -/
def decodeShift (w : CodeWord) : Except DecodeError Instr :=
  if codeField w 15 1 ≠ 0#1 ∨ codeField w 4 4 ≠ 0#4 then .error .fixedBit
  else if codeField w 0 4 ≠ 15#4 then .error .conditional
  else
    match sxopOfCode (codeField w 8 3) with
    | none => .error .noShifterInput
    | some x =>
      let h := hiLoOfCode (codeField w 12 1)
      let o := decide (codeField w 11 1 = 1#1)
      match (codeField w 13 2).toNat with
      | 0 => .ok (.lshiftSe x h o)
      | 1 => .ok (.ashiftSe x h o)
      | 2 => .ok (.norm x h o)
      | _ =>
        match (codeField w 11 2).toNat with
        | 0 => .ok (.expHi x)
        | 1 => .ok (.expHix x)
        | 2 => .ok (.expLo x)
        | _ => .ok (.expadj x)

/-- Words that load a data register, `0100 D(16) RRRR`. -/
def decodeLoad (w : CodeWord) : Except DecodeError Instr :=
  match dregOfCode 0#2 (codeField w 0 4) with
  | some d => .ok (.load d (codeField w 4 16))
  | none => .error .noRegister

/-- Words that load a non-data register, `0011 11 D(14) RRRR`: SB with RRRR = 0110, ASTAT with RRRR = 0000. The
14-bit constant is sign-extended: so the table says for SB; taken for ASTAT too. PRESUMED (log 14). -/
def decodeLoadOther (w : CodeWord) : Except DecodeError Instr :=
  let data : Word := (codeField w 4 14).signExtend 16
  if codeField w 18 2 ≠ 3#2 then .error .noRegister
  else
    match (codeField w 0 4).toNat with
    | 6 => .ok (.load .sb data)
    | 0 => .ok (.astatw data)
    | _ => .error .noRegister

/-- Register-to-register moves, `0000 1101 0000 GG gg RRRR rrrr`. -/
def decodeMove (w : CodeWord) : Except DecodeError Instr :=
  if codeField w 12 4 ≠ 0#4 then .error .fixedBit
  else
    match dregOfCode (codeField w 10 2) (codeField w 4 4), dregOfCode (codeField w 8 2) (codeField w 0 4) with
    | some d, some src => .ok (.move d src)
    | _, _ => .error .noRegister

/-- Mode control, `0000 1100 TI MM AS OL BR SR GM 00`: exactly one of the pairs M, A, L, S is 11 (enable) or 10
(disable) and every other pair is 00 (opcode_table.json, row MODE). The 16 low bits are compared whole. -/
def decodeMode (w : CodeWord) : Except DecodeError Instr :=
  match (codeField w 0 16).toNat with
  | 0x3000 => .ok (.mode .mMode true)
  | 0x2000 => .ok (.mode .mMode false)
  | 0x0C00 => .ok (.mode .arSat true)
  | 0x0800 => .ok (.mode .arSat false)
  | 0x0300 => .ok (.mode .avLatch true)
  | 0x0200 => .ok (.mode .avLatch false)
  | 0x0030 => .ok (.mode .secReg true)
  | 0x0020 => .ok (.mode .secReg false)
  | _ => .error .notOneMode

/-- The decoder: the operation a 24-bit word of the annex stands for, or why it stands for none. -/
def decode (w : CodeWord) : Except DecodeError Instr :=
  if codeField w 19 5 = 4#5 then decodeCompute w
  else if codeField w 20 4 = 4#4 then decodeLoad w
  else if codeField w 20 4 = 3#4 then decodeLoadOther w
  else if codeField w 16 8 = 0x05#8 then decodeSat w
  else if codeField w 16 8 = 0x06#8 then decodeDivs w
  else if codeField w 16 8 = 0x07#8 then decodeDivq w
  else if codeField w 16 8 = 0x0C#8 then decodeMode w
  else if codeField w 16 8 = 0x0D#8 then decodeMove w
  else if codeField w 16 8 = 0x0E#8 then decodeShift w
  else if codeField w 16 8 = 0x0F#8 then decodeShiftImm w
  else .error .noPattern

/-- The 24-bit code word of an instruction whose bits are `w`, numbered as spec/opcode_table.json numbers them: every
row is one word, its first `nbits` bits are given, the others are 0. -/
def codeWordOf (nbits w : Nat) : CodeWord := BitVec.ofNat 24 (w % 2 ^ nbits)

/-- What the decoder reads from an instruction whose bits are `w` (none where it refuses). -/
def decodeTableWord (nbits w : Nat) : Option Instr :=
  match decode (codeWordOf nbits w) with
  | .ok i => some i
  | .error _ => none

/-! ## The encoder, written from the annex -/

/-- XXX of an ALU X operand. -/
def axopCode : Axop → BitVec 3
  | .ax0 => 0b000#3
  | .ax1 => 0b001#3
  | .ar => 0b010#3
  | .mr0 => 0b011#3
  | .mr1 => 0b100#3
  | .mr2 => 0b101#3
  | .sr0 => 0b110#3
  | .sr1 => 0b111#3

/-- XXX of a MAC X operand. -/
def mxopCode : Mxop → BitVec 3
  | .mx0 => 0b000#3
  | .mx1 => 0b001#3
  | .ar => 0b010#3
  | .mr0 => 0b011#3
  | .mr1 => 0b100#3
  | .mr2 => 0b101#3
  | .sr0 => 0b110#3
  | .sr1 => 0b111#3

/-- XXX of a shifter input. -/
def sxopCode : Sxop → BitVec 3
  | .si => 0b000#3
  | .ar => 0b010#3
  | .mr0 => 0b011#3
  | .mr1 => 0b100#3
  | .mr2 => 0b101#3
  | .sr0 => 0b110#3
  | .sr1 => 0b111#3

/-- YY of an ALU Y operand. -/
def ayopCode : Ayop → BitVec 2
  | .ay0 => 0b00#2
  | .ay1 => 0b01#2
  | .af => 0b10#2

/-- YY of a MAC Y operand. -/
def myopCode : Myop → BitVec 2
  | .my0 => 0b00#2
  | .my1 => 0b01#2
  | .mf => 0b10#2

/-- Z of an ALU destination. -/
def adstCode : Adst → BitVec 1
  | .ar => 0#1
  | .af => 1#1

/-- Z of a MAC destination. -/
def mdstCode : Mdst → BitVec 1
  | .mr => 0#1
  | .mf => 1#1

/-- Register group and code of a `dreg`. -/
def dregCode : Dreg → BitVec 2 × BitVec 4
  | .ax0 => (0b00#2, 0b0000#4)
  | .ax1 => (0b00#2, 0b0001#4)
  | .mx0 => (0b00#2, 0b0010#4)
  | .mx1 => (0b00#2, 0b0011#4)
  | .ay0 => (0b00#2, 0b0100#4)
  | .ay1 => (0b00#2, 0b0101#4)
  | .my0 => (0b00#2, 0b0110#4)
  | .my1 => (0b00#2, 0b0111#4)
  | .si => (0b00#2, 0b1000#4)
  | .se => (0b00#2, 0b1001#4)
  | .ar => (0b00#2, 0b1010#4)
  | .mr0 => (0b00#2, 0b1011#4)
  | .mr1 => (0b00#2, 0b1100#4)
  | .mr2 => (0b00#2, 0b1101#4)
  | .sr0 => (0b00#2, 0b1110#4)
  | .sr1 => (0b00#2, 0b1111#4)
  | .sb => (0b11#2, 0b0110#4)

/-- AMF of MUL by format. -/
def mulAmf : Fmt → BitVec 5
  | .rnd => 0b00001#5
  | .ss => 0b00100#5
  | .su => 0b00101#5
  | .us => 0b00110#5
  | .uu => 0b00111#5

/-- AMF of MACC by format. -/
def maccAmf : Fmt → BitVec 5
  | .rnd => 0b00010#5
  | .ss => 0b01000#5
  | .su => 0b01001#5
  | .us => 0b01010#5
  | .uu => 0b01011#5

/-- AMF of MSUB by format. -/
def msubAmf : Fmt → BitVec 5
  | .rnd => 0b00011#5
  | .ss => 0b01100#5
  | .su => 0b01101#5
  | .us => 0b01110#5
  | .uu => 0b01111#5

/-- `00100 Z AMF YY XXX 0000 1111`. -/
def computeWord (z : BitVec 1) (amf : BitVec 5) (yy : BitVec 2) (xxx : BitVec 3) : CodeWord :=
  0b00100#5 ++ z ++ amf ++ yy ++ xxx ++ 0b0000#4 ++ 0b1111#4

/-- `0000 1110 0 SF XXX 0000 1111`. -/
def shiftWord (sf : BitVec 4) (xxx : BitVec 3) : CodeWord :=
  0b00001110#8 ++ 0b0#1 ++ sf ++ xxx ++ 0b0000#4 ++ 0b1111#4

/-- `0000 1111 0 SF XXX EEEEEEEE`. -/
def shiftImmWord (sf : BitVec 4) (xxx : BitVec 3) (e : BitVec 8) : CodeWord :=
  0b00001111#8 ++ 0b0#1 ++ sf ++ xxx ++ e

/-- SF of a shift: its two function bits, then HI/LO, then [SR OR]. -/
def shiftSf (fn : BitVec 2) (h : HiLo) (srOr : Bool) : BitVec 4 :=
  fn ++ (match h with | .hi => 0#1 | .lo => 1#1) ++ (if srOr then 1#1 else 0#1)

/-- `0000 1100 TI MM AS OL BR SR GM 00` with one pair set. -/
def modeWord (m : Mode) (ena : Bool) : CodeWord :=
  let pair : BitVec 2 := if ena then 0b11#2 else 0b10#2
  let z : BitVec 2 := 0b00#2
  match m with
  | .mMode => 0b00001100#8 ++ z ++ pair ++ z ++ z ++ z ++ z ++ z ++ z
  | .arSat => 0b00001100#8 ++ z ++ z ++ pair ++ z ++ z ++ z ++ z ++ z
  | .avLatch => 0b00001100#8 ++ z ++ z ++ z ++ pair ++ z ++ z ++ z ++ z
  | .secReg => 0b00001100#8 ++ z ++ z ++ z ++ z ++ z ++ pair ++ z ++ z

/-- The low 14 bits of a constant, all that a load of a non-data register holds. -/
def data14 (v : Word) : BitVec 14 := v.extractLsb' 0 14

/-- The word of an operation, from the annex; BIAS has none (R186). DIVS with AY0 gets the bit pattern its fields
spell, which the decoder refuses. -/
def encode : Instr → Option CodeWord
  | .add d x y => some (computeWord (adstCode d) 0b10011#5 (ayopCode y) (axopCode x))
  | .addc d x y => some (computeWord (adstCode d) 0b10010#5 (ayopCode y) (axopCode x))
  | .sub d x y => some (computeWord (adstCode d) 0b10111#5 (ayopCode y) (axopCode x))
  | .subb d x y => some (computeWord (adstCode d) 0b10110#5 (ayopCode y) (axopCode x))
  | .rsub d y x => some (computeWord (adstCode d) 0b11001#5 (ayopCode y) (axopCode x))
  | .rsubb d y x => some (computeWord (adstCode d) 0b11010#5 (ayopCode y) (axopCode x))
  | .negx d x => some (computeWord (adstCode d) 0b11001#5 0b11#2 (axopCode x))
  | .negy d y => some (computeWord (adstCode d) 0b10101#5 (ayopCode y) 0b000#3)
  | .inc d y => some (computeWord (adstCode d) 0b10001#5 (ayopCode y) 0b000#3)
  | .dec d y => some (computeWord (adstCode d) 0b11000#5 (ayopCode y) 0b000#3)
  | .passx d x => some (computeWord (adstCode d) 0b10011#5 0b11#2 (axopCode x))
  | .passy d y => some (computeWord (adstCode d) 0b10000#5 (ayopCode y) 0b000#3)
  | .pass0 d => some (computeWord (adstCode d) 0b10000#5 0b11#2 0b000#3)
  | .abs d x => some (computeWord (adstCode d) 0b11111#5 0b00#2 (axopCode x))
  | .logicAnd d x y => some (computeWord (adstCode d) 0b11100#5 (ayopCode y) (axopCode x))
  | .logicOr d x y => some (computeWord (adstCode d) 0b11101#5 (ayopCode y) (axopCode x))
  | .logicXor d x y => some (computeWord (adstCode d) 0b11110#5 (ayopCode y) (axopCode x))
  | .notx d x => some (computeWord (adstCode d) 0b11011#5 0b00#2 (axopCode x))
  | .noty d y => some (computeWord (adstCode d) 0b10100#5 (ayopCode y) 0b000#3)
  | .divs y x => some (0b00000110#8 ++ 0b000#3 ++ ayopCode y ++ axopCode x ++ 0b00000000#8)
  | .divq x => some (0b00000111#8 ++ 0b00010#5 ++ axopCode x ++ 0b00000000#8)
  | .mul d x y f => some (computeWord (mdstCode d) (mulAmf f) (myopCode y) (mxopCode x))
  | .macc d x y f => some (computeWord (mdstCode d) (maccAmf f) (myopCode y) (mxopCode x))
  | .msub d x y f => some (computeWord (mdstCode d) (msubAmf f) (myopCode y) (mxopCode x))
  | .mrclr => some (computeWord 0#1 0b00100#5 0b11#2 0b000#3)
  | .satmr => some 0b000001010000000000000000#24
  | .lshiftImm x e h o => some (shiftImmWord (shiftSf 0b00#2 h o) (sxopCode x) e)
  | .ashiftImm x e h o => some (shiftImmWord (shiftSf 0b01#2 h o) (sxopCode x) e)
  | .lshiftSe x h o => some (shiftWord (shiftSf 0b00#2 h o) (sxopCode x))
  | .ashiftSe x h o => some (shiftWord (shiftSf 0b01#2 h o) (sxopCode x))
  | .norm x h o => some (shiftWord (shiftSf 0b10#2 h o) (sxopCode x))
  | .expHi x => some (shiftWord 0b1100#4 (sxopCode x))
  | .expHix x => some (shiftWord 0b1101#4 (sxopCode x))
  | .expLo x => some (shiftWord 0b1110#4 (sxopCode x))
  | .expadj x => some (shiftWord 0b1111#4 (sxopCode x))
  | .load .sb v => some (0b001111#6 ++ data14 v ++ 0b0110#4)
  | .load d v => some (0b0100#4 ++ v ++ (dregCode d).2)
  | .move d src =>
    some (0b00001101#8 ++ 0b0000#4 ++ (dregCode d).1 ++ (dregCode src).1 ++ (dregCode d).2 ++ (dregCode src).2)
  | .astatw v => some (0b001111#6 ++ data14 v ++ 0b0000#4)
  | .mode m ena => some (modeWord m ena)
  | .bias _ => none

/-- Whether the annex's word holds every bit of the operation: it has a word, and a constant that the word cuts to 14
bits (SB, ASTAT) is the sign extension of what is kept. -/
def Instr.encodable : Instr → Bool
  | .load .sb v => decide ((data14 v).signExtend 16 = v)
  | .astatw v => decide ((data14 v).signExtend 16 = v)
  | .bias _ => false
  | .load .. | .add .. | .addc .. | .sub .. | .subb .. | .rsub .. | .rsubb .. | .negx .. | .negy .. | .inc ..
  | .dec .. | .passx .. | .passy .. | .pass0 .. | .abs .. | .logicAnd .. | .logicOr .. | .logicXor .. | .notx ..
  | .noty .. | .divs .. | .divq .. | .mul .. | .macc .. | .msub .. | .mrclr | .satmr | .lshiftImm ..
  | .ashiftImm .. | .lshiftSe .. | .ashiftSe .. | .norm .. | .expHi .. | .expHix .. | .expLo .. | .expadj ..
  | .move .. | .mode .. => true

end Sys2Proof
end

