-- ==== Sys2Proof/Machine/State.lean ====
section
/-! DEFINITION. The state of the computational units (10_state.md), the reasons a step can stop, and the state after
reset. State is plain data. There is no memory: the spec's machine has none (R41). -/

namespace Sys2Proof.Machine

/-- One of the two copies of every computational register (R18), with the widths of R10, R12 and R15. -/
structure Bank where
  ax0 : Word
  ax1 : Word
  ay0 : Word
  ay1 : Word
  ar : Word
  af : Word
  mx0 : Word
  mx1 : Word
  my0 : Word
  my1 : Word
  mf : Word
  /-- bits 15..0 of MR (R13) -/
  mr0 : Word
  /-- bits 31..16 of MR (R13) -/
  mr1 : Word
  /-- bits 39..32 of MR (R13) -/
  mr2 : BitVec 8
  si : Word
  /-- two's complement 8.0 (R15) -/
  se : BitVec 8
  /-- two's complement 5.0 (R15) -/
  sb : BitVec 5
  /-- bits 15..0 of SR (R16) -/
  sr0 : Word
  /-- bits 31..16 of SR (R16) -/
  sr1 : Word
deriving DecidableEq, Repr

/-- The eight flags of ASTAT (R19). They are held one by one: no operation reads ASTAT as a word (R183), and the
places of the flags in a written word are a parameter (R20). -/
structure Astat where
  az : Bool
  an : Bool
  av : Bool
  ac : Bool
  as : Bool
  aq : Bool
  mv : Bool
  ss : Bool
deriving DecidableEq, Repr

/-- One entry of the program (R30): an operation, or its code word of the annex, which the fetch decodes (log 8). -/
inductive Slot where
  | op (i : Instr)
  | word (w : CodeWord)
deriving DecidableEq, Repr

/-- Everything the spec gives the machine (INVENTORY.md, State). -/
structure State where
  /-- the primary bank (R18) -/
  prim : Bank
  /-- the secondary bank (R18) -/
  sec : Bank
  /-- the flags; not banked (R19, R23) -/
  astat : Astat
  /-- the mode status register; not banked (R21, R23). Bits 0, 2, 3, 4 have a meaning; the others are stored and
  read by no rule. Its width is a DESIGN CHOICE (log 3). -/
  mstat : BitVec 16
  /-- BIASRND (R22); read through `State.biased`, which is 0 on a member without the bit -/
  biasrnd : Bool
  /-- the operation index: no width, no wrap-around (R30) -/
  pc : Nat
  /-- the program: a parameter of the run, which no operation writes (R30, R47) -/
  program : List Slot
  /-- the implementation parameters of 00_scope.md section 4: the MODEL's own field, written by nothing (log 4) -/
  params : Params
deriving DecidableEq, Repr

/-- Why the machine stops by itself. -/
inductive Fault where
  /-- `pc` has reached the end of the program: "the run ends when `pc` equals the length of the list" (R30, R206).
  Raised by the fetch. Safe: the spec gives no further step (log 9). -/
  | runEnded
deriving DecidableEq, Repr

/-- Why a step is refused. -/
inductive Refusal where
  /-- no meaning yet for the instruction; no arm of `exec` answers it. Safe. -/
  | notModelled (mnemonic : String)
  /-- the term spells no operation: DIVS with AY0, or BIAS on a member without BIASRND (R56, R186, R205). Raised by the
  fetch for the whole program, before anything of it runs (R205), and by those two meanings. Safe (log 10). -/
  | noSuchOperation
  /-- a word of the program is no operation's code (R56, R205). Raised by the fetch for the whole program, before
  anything of it runs. Safe (log 10, log 12, log 13). -/
  | badWord (why : DecodeError)
deriving DecidableEq, Repr

/-- A bank with 0 in every register. DESIGN CHOICE: R31 gives the registers no value (log 1). -/
def Bank.zero : Bank :=
  { ax0 := 0, ax1 := 0, ay0 := 0, ay1 := 0, ar := 0, af := 0, mx0 := 0, mx1 := 0, my0 := 0, my1 := 0, mf := 0,
    mr0 := 0, mr1 := 0, mr2 := 0, si := 0, se := 0, sb := 0, sr0 := 0, sr1 := 0 }

/-- All flags 0. PRESUMED: the family's reset, G7 (log 2). -/
def Astat.clear : Astat :=
  { az := false, an := false, av := false, ac := false, as := false, aq := false, mv := false, ss := false }

/-- The state in which a run starts (R31), with its open launch parameters LAUNCH_ASTAT, LAUNCH_MSTAT and
LAUNCH_BIASRND and the program as arguments; `pc` is 0, and BIASRND is 0 on a member without it. A program with an entry
that spells no operation is refused by the first fetch, before anything of it runs (R205; log 10). -/
def State.launch (p : Params) (astat : Astat) (mstat : BitVec 16) (biasrnd : Bool) (program : List Slot) : State :=
  { prim := Bank.zero, sec := Bank.zero, astat := astat, mstat := mstat, biasrnd := p.hasBiasrnd && biasrnd,
    pc := 0, program := program, params := p }

/-- The machine right after reset. The spec gives `pc` = 0 (R31) and nothing else; the flags and MSTAT are the
family's (PRESUMED, log 2), BIASRND 0 and the parameters a DESIGN CHOICE (log 2, log 5), the program empty (log 8). -/
def State.reset : State := State.launch Params.standard Astat.clear 0 false []

end Sys2Proof.Machine
end

