-- ==== Sys2Proof/Machine/Ops.lean ====
section
/-! DEFINITION. The named operations over the registers: the active bank (R18), the mode bits (R21, R22), and the
double registers MR (R13) and SR (R16). There is no memory operation (R41) and no exception entry or return: no
operation raises an exception (R200), and no interrupt, vector or return exists (R202, 60_exceptions.md). -/

namespace Sys2Proof.Machine

/-- What a meaning answers. -/
abbrev Out := Host.Outcome State Fault Refusal

/-! ## Mode bits -/

/-- MSTAT bit 0, SEC_REG: the secondary bank is selected (R18, R21). -/
def State.secReg (s : State) : Bool := s.mstat.getLsbD 0

/-- MSTAT bit 2, AV_LATCH: the overflow latch mode (R21, R75). -/
def State.avLatch (s : State) : Bool := s.mstat.getLsbD 2

/-- MSTAT bit 3, AR_SAT: the saturation mode of AR (R21, R76). -/
def State.arSat (s : State) : Bool := s.mstat.getLsbD 3

/-- MSTAT bit 4, M_MODE: the integer mode of the MAC (R21, R123). -/
def State.intMode (s : State) : Bool := s.mstat.getLsbD 4

/-- BIASRND as the MAC sees it: the constant 0 on a member without the bit (R22). -/
def State.biased (s : State) : Bool := s.params.hasBiasrnd && s.biasrnd

/-- The MSTAT bit of a mode (R185). -/
def modeBit : Mode → Nat
  | .secReg => 0
  | .avLatch => 2
  | .arSat => 3
  | .mMode => 4

/-- MSTAT with one bit written and the others kept (R185). -/
def mstatWith (m : BitVec 16) (bit : Nat) (b : Bool) : BitVec 16 :=
  if b then m ||| BitVec.twoPow 16 bit else m &&& ~~~ (BitVec.twoPow 16 bit)

/-! ## The two banks -/

/-- The active bank: what every register name means (R18). -/
def State.bank (s : State) : Bank := if s.secReg then s.sec else s.prim

/-- The bank that is not accessible (R18). -/
def State.inactiveBank (s : State) : Bank := if s.secReg then s.prim else s.sec

/-- The state with another active bank; the inactive one is kept (R18). -/
def State.setBank (s : State) (b : Bank) : State :=
  { s with prim := if s.secReg then s.prim else b, sec := if s.secReg then b else s.sec }

/-- The state with other flags. -/
def State.setAstat (s : State) (f : Astat) : State := { s with astat := f }

/-! ## MR and SR as wholes -/

/-- MR = {MR2, MR1, MR0} (R13). -/
def Bank.mr (b : Bank) : BitVec 40 := b.mr2 ++ b.mr1 ++ b.mr0

/-- MR written whole: all three parts come from the value, with no sign extension of MR1 (R13, R27, R125). -/
def Bank.setMr (b : Bank) (v : BitVec 40) : Bank :=
  { b with mr2 := v.extractLsb' 32 8, mr1 := v.extractLsb' 16 16, mr0 := v.extractLsb' 0 16 }

/-- SR = {SR1, SR0} (R16). -/
def Bank.sr (b : Bank) : BitVec 32 := b.sr1 ++ b.sr0

/-- SR written whole (R16, R153). -/
def Bank.setSr (b : Bank) (v : BitVec 32) : Bank :=
  { b with sr1 := v.extractLsb' 16 16, sr0 := v.extractLsb' 0 16 }

end Sys2Proof.Machine
end

