-- ==== Sys2Proof/Machine/Flags.lean ====
section
/-! DEFINITION. The adder and the flag rules: Add16 (R71), the ALU flags (R73 to R75), AR saturation (R76), MV (R126),
and the write of ASTAT by its layout (R184). -/

namespace Sys2Proof.Machine

/-- What one pass through the ALU produces: the 16-bit output and its two signals (R70, R71). -/
structure AluOut where
  r : Word
  cout : Bool
  ovf : Bool
deriving DecidableEq, Repr

/-- `Add16(a, b, cin)` (R71): the sum, the carry out of the most significant stage, and the exclusive OR of the
carries of the two most significant stages. -/
def add16 (a b : Word) (cin : Bool) : AluOut :=
  let t := a.toNat + b.toNat + cin.toNat
  let c15 := (a.toNat % 2 ^ 15 + b.toNat % 2 ^ 15 + cin.toNat).testBit 15
  let cout := t.testBit 16
  { r := BitVec.ofNat 16 t, cout := cout, ovf := xor c15 cout }

/-- A function that does not use the adder: carry and overflow are 0 (R74). PRESUMED: G10, decision D8 (log 16). -/
def noAdder (r : Word) : AluOut := { r := r, cout := false, ovf := false }

/-- The flags after a standard ALU function, from its output BEFORE any saturation (R73), with the overflow latch mode
(R75). DEDUCED: decisions D8 and D9 (log 17). -/
def aluFlags (latch : Bool) (o : AluOut) (f : Astat) : Astat :=
  { f with
    az := decide (o.r = 0)
    an := o.r.msb
    ac := o.cout
    av := if latch then f.av || o.ovf else o.ovf }

/-- What AR receives in saturation mode (R76, Table 2.2). -/
def saturateAr (o : AluOut) : Word :=
  if o.ovf then (if o.cout then 0x8000#16 else 0x7FFF#16) else o.r

/-- MV: the upper nine bits of the result are not all alike (R126). -/
def macMv (res : BitVec 40) : Bool :=
  let top := res.extractLsb' 31 9
  !(decide (top = 0b000000000#9) || decide (top = 0b111111111#9))

/-- The eight flags as a bus value writes them, by the layout (R184, R20). -/
def astatOf (l : AstatLayout) (v : Word) : Astat :=
  { az := v.getLsbD l.az, an := v.getLsbD l.an, av := v.getLsbD l.av, ac := v.getLsbD l.ac,
    as := v.getLsbD l.as, aq := v.getLsbD l.aq, mv := v.getLsbD l.mv, ss := v.getLsbD l.ss }

end Sys2Proof.Machine
end

