-- ==== Sys2Proof/Machine/Operands.lean ====
section
/-! DEFINITION. How each operand class reads its register, and how a bus load writes one (R25, R26, R27). Every read
is of the active bank. -/

namespace Sys2Proof.Machine

/-- MR2 as it drives a 16-bit bus: "sign bits are added to form a 16-bit value" (R25). -/
def Bank.mr2Bus (b : Bank) : Word := b.mr2.signExtend 16

/-- SE as it drives the DMD bus (R25). -/
def Bank.seBus (b : Bank) : Word := b.se.signExtend 16

/-- SB as it drives the DMD bus (R25). -/
def Bank.sbBus (b : Bank) : Word := b.sb.signExtend 16

/-- The ALU X port (R11, R70). -/
def State.readAxop (s : State) : Axop → Word
  | .ax0 => s.bank.ax0
  | .ax1 => s.bank.ax1
  | .ar => s.bank.ar
  | .mr0 => s.bank.mr0
  | .mr1 => s.bank.mr1
  | .mr2 => s.bank.mr2Bus
  | .sr0 => s.bank.sr0
  | .sr1 => s.bank.sr1

/-- The ALU Y port (R11, R70). -/
def State.readAyop (s : State) : Ayop → Word
  | .ay0 => s.bank.ay0
  | .ay1 => s.bank.ay1
  | .af => s.bank.af

/-- The MAC X port (R14, R120). -/
def State.readMxop (s : State) : Mxop → Word
  | .mx0 => s.bank.mx0
  | .mx1 => s.bank.mx1
  | .ar => s.bank.ar
  | .mr0 => s.bank.mr0
  | .mr1 => s.bank.mr1
  | .mr2 => s.bank.mr2Bus
  | .sr0 => s.bank.sr0
  | .sr1 => s.bank.sr1

/-- The MAC Y port (R14, R120). -/
def State.readMyop (s : State) : Myop → Word
  | .my0 => s.bank.my0
  | .my1 => s.bank.my1
  | .mf => s.bank.mf

/-- The input of the shifter array and of the exponent detector (R17). -/
def State.readSxop (s : State) : Sxop → Word
  | .si => s.bank.si
  | .ar => s.bank.ar
  | .mr0 => s.bank.mr0
  | .mr1 => s.bank.mr1
  | .mr2 => s.bank.mr2Bus
  | .sr0 => s.bank.sr0
  | .sr1 => s.bank.sr1

/-- `x[N]`: the 16-bit value a register drives on the DMD bus (R25). -/
def Bank.readDreg (b : Bank) : Dreg → Word
  | .ax0 => b.ax0
  | .ax1 => b.ax1
  | .ay0 => b.ay0
  | .ay1 => b.ay1
  | .ar => b.ar
  | .mx0 => b.mx0
  | .mx1 => b.mx1
  | .my0 => b.my0
  | .my1 => b.my1
  | .mr0 => b.mr0
  | .mr1 => b.mr1
  | .mr2 => b.mr2Bus
  | .si => b.si
  | .se => b.seBus
  | .sb => b.sbBus
  | .sr0 => b.sr0
  | .sr1 => b.sr1

/-- `x[N] <- v`: a load of a bus value; MR2 and SE keep its 8 low bits, SB its 5 low bits (R26), and a load of MR1
also sets every bit of MR2 to the sign bit (R27). -/
def Bank.writeDreg (b : Bank) (d : Dreg) (v : Word) : Bank :=
  match d with
  | .ax0 => { b with ax0 := v }
  | .ax1 => { b with ax1 := v }
  | .ay0 => { b with ay0 := v }
  | .ay1 => { b with ay1 := v }
  | .ar => { b with ar := v }
  | .mx0 => { b with mx0 := v }
  | .mx1 => { b with mx1 := v }
  | .my0 => { b with my0 := v }
  | .my1 => { b with my1 := v }
  | .mr0 => { b with mr0 := v }
  | .mr1 => { b with mr1 := v, mr2 := if v.msb then 0xFF#8 else 0x00#8 }
  | .mr2 => { b with mr2 := v.setWidth 8 }
  | .si => { b with si := v }
  | .se => { b with se := v.setWidth 8 }
  | .sb => { b with sb := v.setWidth 5 }
  | .sr0 => { b with sr0 := v }
  | .sr1 => { b with sr1 := v }

end Sys2Proof.Machine
end

