-- ==== Sys2Proof/Machine/Alu.lean ====
section
/-! DEFINITION. The nineteen standard functions of the ALU (40_alu.md). Every one reads its operands from the state it
starts in and writes its destination and the flags together (R5, R70). None raises an exception (R200). -/

namespace Sys2Proof.Machine

/-- Write the destination: AR saturates when MSTAT[3] is set, AF never does (R76). -/
def Bank.writeAdst (b : Bank) (sat : Bool) (d : Adst) (o : AluOut) : Bank :=
  match d with
  | .ar => { b with ar := if sat then saturateAr o else o.r }
  | .af => { b with af := o.r }

/-- The end of every standard ALU function: "write R" (R76) and "flags" (R73, R75). -/
def State.aluEnd (s : State) (d : Adst) (o : AluOut) : State :=
  (s.setBank (s.bank.writeAdst s.arSat d o)).setAstat (aluFlags s.avLatch o s.astat)

/-- ADD: Add16(X, Y, 0) (R77). -/
def execAdd (d : Adst) (x : Axop) (y : Ayop) (s : State) : Out :=
  .next (s.aluEnd d (add16 (s.readAxop x) (s.readAyop y) false))

/-- ADDC: Add16(X, Y, AC) (R78). -/
def execAddc (d : Adst) (x : Axop) (y : Ayop) (s : State) : Out :=
  .next (s.aluEnd d (add16 (s.readAxop x) (s.readAyop y) s.astat.ac))

/-- SUB: Add16(X, ~Y, 1) (R79, R72). PRESUMED flags: D7, G11 (log 15). -/
def execSub (d : Adst) (x : Axop) (y : Ayop) (s : State) : Out :=
  .next (s.aluEnd d (add16 (s.readAxop x) (~~~ (s.readAyop y)) true))

/-- SUBB: Add16(X, ~Y, AC) (R80, R72). PRESUMED flags: D7, G11 (log 15). -/
def execSubb (d : Adst) (x : Axop) (y : Ayop) (s : State) : Out :=
  .next (s.aluEnd d (add16 (s.readAxop x) (~~~ (s.readAyop y)) s.astat.ac))

/-- RSUB: Add16(Y, ~X, 1) (R81, R72). PRESUMED flags: D7, G11 (log 15). -/
def execRsub (d : Adst) (y : Ayop) (x : Axop) (s : State) : Out :=
  .next (s.aluEnd d (add16 (s.readAyop y) (~~~ (s.readAxop x)) true))

/-- RSUBB: Add16(Y, ~X, AC) (R82, R72). PRESUMED flags: D7, G11 (log 15). -/
def execRsubb (d : Adst) (y : Ayop) (x : Axop) (s : State) : Out :=
  .next (s.aluEnd d (add16 (s.readAyop y) (~~~ (s.readAxop x)) s.astat.ac))

/-- NEGX: Add16(0, ~X, 1) (R83). -/
def execNegx (d : Adst) (x : Axop) (s : State) : Out :=
  .next (s.aluEnd d (add16 0x0000#16 (~~~ (s.readAxop x)) true))

/-- NEGY: Add16(0, ~Y, 1) (R84). -/
def execNegy (d : Adst) (y : Ayop) (s : State) : Out :=
  .next (s.aluEnd d (add16 0x0000#16 (~~~ (s.readAyop y)) true))

/-- INC: Add16(Y, 0, 1) (R85). -/
def execInc (d : Adst) (y : Ayop) (s : State) : Out :=
  .next (s.aluEnd d (add16 (s.readAyop y) 0x0000#16 true))

/-- DEC: Add16(Y, 0xFFFF, 0) (R86). -/
def execDec (d : Adst) (y : Ayop) (s : State) : Out :=
  .next (s.aluEnd d (add16 (s.readAyop y) 0xFFFF#16 false))

/-- PASSX (R87). -/
def execPassx (d : Adst) (x : Axop) (s : State) : Out :=
  .next (s.aluEnd d (noAdder (s.readAxop x)))

/-- PASSY (R88). -/
def execPassy (d : Adst) (y : Ayop) (s : State) : Out :=
  .next (s.aluEnd d (noAdder (s.readAyop y)))

/-- PASS0 (R89). -/
def execPass0 (d : Adst) (s : State) : Out :=
  .next (s.aluEnd d (noAdder 0x0000#16))

/-- ABS: X itself, or Add16(0, ~X, 1) when X is negative; AS gets the sign of X (R90). -/
def execAbs (d : Adst) (x : Axop) (s : State) : Out :=
  let v := s.readAxop x
  let t := s.aluEnd d (if v.msb then add16 0x0000#16 (~~~ v) true else noAdder v)
  .next (t.setAstat { t.astat with as := v.msb })

/-- AND (R91). -/
def execAnd (d : Adst) (x : Axop) (y : Ayop) (s : State) : Out :=
  .next (s.aluEnd d (noAdder (s.readAxop x &&& s.readAyop y)))

/-- OR (R92). -/
def execOr (d : Adst) (x : Axop) (y : Ayop) (s : State) : Out :=
  .next (s.aluEnd d (noAdder (s.readAxop x ||| s.readAyop y)))

/-- XOR (R93). -/
def execXor (d : Adst) (x : Axop) (y : Ayop) (s : State) : Out :=
  .next (s.aluEnd d (noAdder (s.readAxop x ^^^ s.readAyop y)))

/-- NOTX: the bitwise complement (R94, C10). -/
def execNotx (d : Adst) (x : Axop) (s : State) : Out :=
  .next (s.aluEnd d (noAdder (~~~ (s.readAxop x))))

/-- NOTY: the bitwise complement (R95, C10). -/
def execNoty (d : Adst) (y : Ayop) (s : State) : Out :=
  .next (s.aluEnd d (noAdder (~~~ (s.readAyop y))))

end Sys2Proof.Machine
end

