-- ==== Sys2Proof/Machine/Divide.lean ====
section
/-! DEFINITION. The divide primitives (41_divide.md). They write AF, AY0 and AQ and nothing else; saturation and the
overflow latch do not apply (R110, R111, D10; log 18). A divide overflow or a zero divisor raises nothing (R114). -/

namespace Sys2Proof.Machine

/-- The common end of DIVS and DIVQ: the pair AF-AY0 takes the 15 low bits of R and is shifted left one place, the bit
`q0` entering AY0, and AQ takes `aq`. -/
def State.divShift (s : State) (r : Word) (q0 aq : Bool) : State :=
  let b := s.bank
  (s.setBank { b with
    af := r.extractLsb' 0 15 ++ b.ay0.extractLsb' 15 1
    ay0 := b.ay0.extractLsb' 0 15 ++ BitVec.ofBool q0 }).setAstat { s.astat with aq := aq }

/-- DIVS: the sign bit of the quotient (R110). The two signs combine by exclusive OR: conflict C1 (log 33). AY0 as the
upper word of the dividend spells no operation (R110, R56). -/
def execDivs (y : Ayop) (x : Axop) (s : State) : Out :=
  let q := xor (s.readAxop x).msb (s.readAyop y).msb
  match y with
  | .ay0 => .refused .noSuchOperation
  | .ay1 => .next (s.divShift (s.readAyop .ay1) q q)
  | .af => .next (s.divShift (s.readAyop .af) q q)

/-- DIVQ: one quotient bit (R111). AQ chooses add or subtract; the new AQ compares the signs of the divisor and of R:
conflict C2 (log 33). -/
def execDivq (x : Axop) (s : State) : Out :=
  let v := s.readAxop x
  let r := if s.astat.aq then s.bank.af + v else s.bank.af - v
  let q := xor v.msb r.msb
  .next (s.divShift r (!q) q)

end Sys2Proof.Machine
end

