-- ==== Sys2Proof/Machine/Mac.lean ====
section
/-! DEFINITION. The multiplier/accumulator (42_mac.md). -/

namespace Sys2Proof.Machine

/-- The X operand as an integer, by the format (R122). RND is signed: PRESUMED, D12, G12 (log 19). -/
def fmtX (f : Fmt) (x : Word) : Int :=
  match f with
  | .ss => x.toInt
  | .su => x.toInt
  | .rnd => x.toInt
  | .us => Int.ofNat x.toNat
  | .uu => Int.ofNat x.toNat

/-- The Y operand as an integer, by the format (R122). -/
def fmtY (f : Fmt) (y : Word) : Int :=
  match f with
  | .ss => y.toInt
  | .us => y.toInt
  | .rnd => y.toInt
  | .su => Int.ofNat y.toNat
  | .uu => Int.ofNat y.toNat

/-- P, the 32-bit product (R122). -/
def product (f : Fmt) (x y : Word) : BitVec 32 := BitVec.ofInt 32 (fmtX f x * fmtY f y)

/-- E, the product widened to 40 bits: by its sign, except an unsigned product where MAC_UU_EXTEND is `zero` (R123,
D14; log 6). -/
def widenProduct (u : UuExtend) (f : Fmt) (p : BitVec 32) : BitVec 40 :=
  match f, u with
  | .uu, .zero => p.setWidth 40
  | .uu, .sign => p.signExtend 40
  | .ss, _ => p.signExtend 40
  | .su, _ => p.signExtend 40
  | .us, _ => p.signExtend 40
  | .rnd, _ => p.signExtend 40

/-- PP: in fractional mode the widened product is shifted left one bit, in integer mode not (R123, C4). -/
def placeProduct (intMode : Bool) (e : BitVec 40) : BitVec 40 :=
  if intMode then e else e <<< 1

/-- PP of the operands of one MAC operation (R120 to R123). -/
def State.macProduct (s : State) (x : Mxop) (y : Myop) (f : Fmt) : BitVec 40 :=
  placeProduct s.intMode (widenProduct s.params.macUuExtend f (product f (s.readMxop x) (s.readMyop y)))

/-- `Round(v)`: 1 is added to bit 15, and bit 16 is forced to 0 at a midpoint unless rounding is biased (R130, R131).
The low 16 bits are those of the sum: DEDUCED, R132, C3, D13 (log 20). -/
def roundMac (biased : Bool) (v : BitVec 40) : BitVec 40 :=
  let r := v + 0x8000#40
  if v.extractLsb' 0 16 = 0x8000#16 ∧ biased = false then r &&& ~~~ 0x10000#40 else r

/-- The adder's output, rounded when the format says so (R127 to R129). -/
def State.macRound (s : State) (f : Fmt) (v : BitVec 40) : BitVec 40 :=
  match f with
  | .rnd => roundMac s.biased v
  | .ss => v
  | .su => v
  | .us => v
  | .uu => v

/-- Write the result: MR takes all 40 bits, MF takes bits 31..16 (R125). With MF as destination MR keeps its value:
DEDUCED, D16 (log 21). -/
def Bank.writeMdst (b : Bank) (d : Mdst) (res : BitVec 40) : Bank :=
  match d with
  | .mr => b.setMr res
  | .mf => { b with mf := res.extractLsb' 16 16 }

/-- The end of a MAC operation: write `res` and MV (R125, R126). -/
def State.macEnd (s : State) (d : Mdst) (res : BitVec 40) : State :=
  (s.setBank (s.bank.writeMdst d res)).setAstat { s.astat with mv := macMv res }

/-- MUL (R127). -/
def execMul (d : Mdst) (x : Mxop) (y : Myop) (f : Fmt) (s : State) : Out :=
  .next (s.macEnd d (s.macRound f (s.macProduct x y f)))

/-- MACC: the sum wraps modulo 2^40 (R128, R124; D17, log 22). -/
def execMacc (d : Mdst) (x : Mxop) (y : Myop) (f : Fmt) (s : State) : Out :=
  .next (s.macEnd d (s.macRound f (s.bank.mr + s.macProduct x y f)))

/-- MSUB: the difference wraps modulo 2^40 (R129, R124; D17, log 22). -/
def execMsub (d : Mdst) (x : Mxop) (y : Myop) (f : Fmt) (s : State) : Out :=
  .next (s.macEnd d (s.macRound f (s.bank.mr - s.macProduct x y f)))

/-- MRCLR: MR and MV become 0 (R133). -/
def execMrclr (s : State) : Out := .next (s.macEnd .mr 0#40)

/-- SATMR: by MV and the most significant bit of MR2 (R136, Table 2.3). No flag is written: DEDUCED, D15 (log 23). -/
def execSatmr (s : State) : Out :=
  let b := s.bank
  .next (if s.astat.mv then
      s.setBank (b.setMr (if b.mr2.msb then 0xFF80000000#40 else 0x007FFFFFFF#40))
    else s)

end Sys2Proof.Machine
end

