-- ==== Sys2Proof/Machine/Shifter.lean ====
section
/-! DEFINITION. The barrel shifter (43_shifter.md): the array, the exponent detector, the shift, normalise and exponent
operations. The only flag a shifter operation writes is SS, and only EXP (HI) and EXP (HIX) write it (R169). -/

namespace Sys2Proof.Machine

/-- The bits `f (n-1) … f 0` as a bit vector. -/
def bitsOf (f : Nat → Bool) : (n : Nat) → BitVec n
  | 0 => 0#0
  | n + 1 => BitVec.cons (f n) (bitsOf f n)

/-- Bit `i` of the array's output when input bit 0 stands at position `p` (R150). -/
def arrayBit (inp : Word) (p : Int) (ext : Bool) (i : Nat) : Bool :=
  let j : Int := (i : Int) - p
  if j < 0 then false else if j ≤ 15 then inp.getLsbD j.toNat else ext

/-- The position of input bit 0 in the 32-bit field: the control code, plus 16 under HI (R150, R152). -/
def arrayPosition (c : Int) (h : HiLo) : Int :=
  match h with
  | .hi => c + 16
  | .lo => c

/-- `Array(I, C, hi, X)` (R150, Table 2.4 in R155). -/
def shiftArray (inp : Word) (c : Int) (h : HiLo) (ext : Bool) : BitVec 32 :=
  bitsOf (arrayBit inp (arrayPosition c h) ext) 32

/-- OR/PASS: SR takes the array's output, or its OR with the old SR (R153). -/
def State.srEnd (s : State) (srOr : Bool) (a : BitVec 32) : State :=
  let b := s.bank
  s.setBank (b.setSr (if srOr then b.sr ||| a else a))

/-- LSHIFT, immediate: extension bit 0 (R158, R154). -/
def execLshiftImm (x : Sxop) (e : BitVec 8) (h : HiLo) (srOr : Bool) (s : State) : Out :=
  .next (s.srEnd srOr (shiftArray (s.readSxop x) e.toInt h false))

/-- ASHIFT, immediate: extension bit I[15] (R159, R154). -/
def execAshiftImm (x : Sxop) (e : BitVec 8) (h : HiLo) (srOr : Bool) (s : State) : Out :=
  .next (s.srEnd srOr (shiftArray (s.readSxop x) e.toInt h (s.readSxop x).msb))

/-- LSHIFT by SE (R160, R151). -/
def execLshiftSe (x : Sxop) (h : HiLo) (srOr : Bool) (s : State) : Out :=
  .next (s.srEnd srOr (shiftArray (s.readSxop x) s.bank.se.toInt h false))

/-- ASHIFT by SE (R161, R151). -/
def execAshiftSe (x : Sxop) (h : HiLo) (srOr : Bool) (s : State) : Out :=
  .next (s.srEnd srOr (shiftArray (s.readSxop x) s.bank.se.toInt h (s.readSxop x).msb))

/-- The extension bit of NORM: AC under HI, 0 under LO (R154, R163). -/
def normExt (h : HiLo) (ac : Bool) : Bool :=
  match h with
  | .hi => ac
  | .lo => false

/-- NORM: the code is the negated SE, an integer, so SE = -128 gives +128 (R162, R151; D18, log 24). -/
def execNorm (x : Sxop) (h : HiLo) (srOr : Bool) (s : State) : Out :=
  .next (s.srEnd srOr (shiftArray (s.readSxop x) (-s.bank.se.toInt) h (normExt h s.astat.ac)))

/-- How many of the bits `n-1, n-2, …, 0` of `v`, from the top, equal `b` before the first that differs. -/
def leadRun (v : Word) (b : Bool) : Nat → Nat
  | 0 => 0
  | n + 1 => if v.getLsbD n = b then leadRun v b n + 1 else 0

/-- `ExpHI(I)`: minus the number of redundant sign bits, 0 to -15 (R156). -/
def expHiOf (v : Word) : Int := -((leadRun v v.msb 16 : Int) - 1)

/-- `ExpLO(I, SS)`: -15 minus the number of leading bits equal to SS, -15 to -31 (R157). -/
def expLoOf (v : Word) (ss : Bool) : Int := -15 - (leadRun v ss 16 : Int)

/-- SE and SS written together by EXP (HI) and EXP (HIX) (R165, R166). -/
def State.expEnd (s : State) (e : BitVec 8) (ss : Bool) : State :=
  (s.setBank { s.bank with se := e }).setAstat { s.astat with ss := ss }

/-- EXP (HI) (R165). -/
def execExpHi (x : Sxop) (s : State) : Out :=
  let v := s.readSxop x
  .next (s.expEnd (BitVec.ofInt 8 (expHiOf v)) v.msb)

/-- EXP (HIX): +1 and the inverted sign when AV is set, as EXP (HI) otherwise (R166). -/
def execExpHix (x : Sxop) (s : State) : Out :=
  let v := s.readSxop x
  .next (if s.astat.av then s.expEnd 0x01#8 (!v.msb) else s.expEnd (BitVec.ofInt 8 (expHiOf v)) v.msb)

/-- EXP (LO): SE is loaded only when it holds -15; SS is read, not written (R167; D20, log 25). -/
def execExpLo (x : Sxop) (s : State) : Out :=
  let b := s.bank
  .next (if b.se.toInt = -15 then
      s.setBank { b with se := BitVec.ofInt 8 (expLoOf (s.readSxop x) s.astat.ss) }
    else s)

/-- EXPADJ: SB takes the exponent when it exceeds SB; SE and SS are not written (R168; D19, log 25). -/
def execExpadj (x : Sxop) (s : State) : Out :=
  let b := s.bank
  let e := expHiOf (s.readSxop x)
  .next (if e > b.sb.toInt then s.setBank { b with sb := BitVec.ofInt 5 e } else s)

end Sys2Proof.Machine
end

