-- ==== Sys2Proof/Machine/Transfer.lean ====
section
/-! DEFINITION. Register loads and moves, and the writes of ASTAT, MSTAT and BIASRND (44_register_moves.md). -/

namespace Sys2Proof.Machine

/-- LOAD: `x[dreg] <- <data>`; no flag, no saturation (R180, R26, R27, R135). -/
def execLoad (d : Dreg) (data : Word) (s : State) : Out :=
  .next (s.setBank (s.bank.writeDreg d data))

/-- MOVE: `x[dst] <- x[src]` (R181). PRESUMED that the operation exists: D34, G14 (log 26). -/
def execMove (d : Dreg) (src : Dreg) (s : State) : Out :=
  .next (s.setBank (s.bank.writeDreg d (s.bank.readDreg src)))

/-- ASTATW: all eight flags from the bus value, by the layout; it overrides the latch (R184). PRESUMED that the write
is of the whole register: D21, G4 (log 7). -/
def execAstatw (data : Word) (s : State) : Out :=
  .next (s.setAstat (astatOf s.params.astatLayout data))

/-- MODE: `ENA m;` or `DIS m;` writes one bit of MSTAT (R185). -/
def execMode (m : Mode) (ena : Bool) (s : State) : Out :=
  .next { s with mstat := mstatWith s.mstat (modeBit m) ena }

/-- BIAS: BIASRND takes the operand, on a member that has the bit; elsewhere it spells no operation (R186, R56;
log 29). -/
def execBias (b : Bool) (s : State) : Out :=
  if s.params.hasBiasrnd then .next { s with biasrnd := b } else .refused .noSuchOperation

end Sys2Proof.Machine
end

