-- ==== Sys2Proof/Machine/Dispatch.lean ====
section
/-! DEFINITION. The meaning of every operation, one arm per constructor of `Instr`. `pc` is advanced by the step, not
here (R30). -/

namespace Sys2Proof.Machine

def exec (i : Instr) (s : State) : Host.Outcome State Fault Refusal :=
  match i with
  | .add d x y => Sys2Proof.Machine.execAdd d x y s
  | .addc d x y => Sys2Proof.Machine.execAddc d x y s
  | .sub d x y => Sys2Proof.Machine.execSub d x y s
  | .subb d x y => Sys2Proof.Machine.execSubb d x y s
  | .rsub d y x => Sys2Proof.Machine.execRsub d y x s
  | .rsubb d y x => Sys2Proof.Machine.execRsubb d y x s
  | .negx d x => Sys2Proof.Machine.execNegx d x s
  | .negy d y => Sys2Proof.Machine.execNegy d y s
  | .inc d y => Sys2Proof.Machine.execInc d y s
  | .dec d y => Sys2Proof.Machine.execDec d y s
  | .passx d x => Sys2Proof.Machine.execPassx d x s
  | .passy d y => Sys2Proof.Machine.execPassy d y s
  | .pass0 d => Sys2Proof.Machine.execPass0 d s
  | .abs d x => Sys2Proof.Machine.execAbs d x s
  | .logicAnd d x y => Sys2Proof.Machine.execAnd d x y s
  | .logicOr d x y => Sys2Proof.Machine.execOr d x y s
  | .logicXor d x y => Sys2Proof.Machine.execXor d x y s
  | .notx d x => Sys2Proof.Machine.execNotx d x s
  | .noty d y => Sys2Proof.Machine.execNoty d y s
  | .divs y x => Sys2Proof.Machine.execDivs y x s
  | .divq x => Sys2Proof.Machine.execDivq x s
  | .mul d x y f => Sys2Proof.Machine.execMul d x y f s
  | .macc d x y f => Sys2Proof.Machine.execMacc d x y f s
  | .msub d x y f => Sys2Proof.Machine.execMsub d x y f s
  | .mrclr => Sys2Proof.Machine.execMrclr s
  | .satmr => Sys2Proof.Machine.execSatmr s
  | .lshiftImm x e h o => Sys2Proof.Machine.execLshiftImm x e h o s
  | .ashiftImm x e h o => Sys2Proof.Machine.execAshiftImm x e h o s
  | .lshiftSe x h o => Sys2Proof.Machine.execLshiftSe x h o s
  | .ashiftSe x h o => Sys2Proof.Machine.execAshiftSe x h o s
  | .norm x h o => Sys2Proof.Machine.execNorm x h o s
  | .expHi x => Sys2Proof.Machine.execExpHi x s
  | .expHix x => Sys2Proof.Machine.execExpHix x s
  | .expLo x => Sys2Proof.Machine.execExpLo x s
  | .expadj x => Sys2Proof.Machine.execExpadj x s
  | .load d v => Sys2Proof.Machine.execLoad d v s
  | .move d src => Sys2Proof.Machine.execMove d src s
  | .astatw v => Sys2Proof.Machine.execAstatw v s
  | .mode m ena => Sys2Proof.Machine.execMode m ena s
  | .bias b => Sys2Proof.Machine.execBias b s

end Sys2Proof.Machine
end

