-- ==== Sys2Proof/WellFormed.lean ====
section
/-! DEFINITION. Which terms of `Instr` spell an operation (R56, R205). The operand classes of R51 are types, so an
operand outside its class cannot be written; the two checks left are DIVS with AY0 and BIAS on a member that has no
BIASRND bit. An immediate out of range (R57, R170) cannot be written either: `<exp>` is 8 bits, `<data>` 16 bits. -/

namespace Sys2Proof

/-- The upper word of a signed dividend is in AY1 or AF, never in AY0 (R110, R56). -/
def Ayop.holdsSignedDividend : Ayop → Bool
  | .ay0 => false
  | .ay1 => true
  | .af => true

/-- Whether a term spells an operation of the implementation with parameters `p` (R56, R205, R186). -/
def Instr.wf (p : Params) : Instr → Bool
  | .divs y _ => y.holdsSignedDividend
  | .bias _ => p.hasBiasrnd
  | .add .. | .addc .. | .sub .. | .subb .. | .rsub .. | .rsubb .. | .negx .. | .negy .. | .inc .. | .dec ..
  | .passx .. | .passy .. | .pass0 .. | .abs .. | .logicAnd .. | .logicOr .. | .logicXor .. | .notx .. | .noty ..
  | .divq .. | .mul .. | .macc .. | .msub .. | .mrclr | .satmr | .lshiftImm .. | .ashiftImm .. | .lshiftSe ..
  | .ashiftSe .. | .norm .. | .expHi .. | .expHix .. | .expLo .. | .expadj .. | .load .. | .move .. | .astatw ..
  | .mode .. => true

end Sys2Proof
end

