-- ==== Sys2Proof/Machine/Fetch.lean ====
section
/-! DEFINITION. The program list: the check of the whole program before anything runs (R205), fetching the operation at
`pc`, advancing `pc` (R30), and placing a code word where the next fetch reads it. -/

namespace Sys2Proof.Machine

/-- The operation a program entry stands for: itself, or what its code word decodes to (log 8, log 10). -/
def slotInstr : Slot → Host.Outcome Instr Fault Refusal
  | .op i => .next i
  | .word w =>
    match decode w with
    | .ok i => .next i
    | .error e => .refused (.badWord e)

/-- Why a program entry spells no operation of the implementation `p`; none where it spells one (R56, R205). -/
def slotRefusal (p : Params) (slot : Slot) : Option Refusal :=
  match slotInstr slot with
  | .next i => if i.wf p then none else some .noSuchOperation
  | .fault _ => none
  | .refused r => some r

/-- Whether a program entry spells an operation of the implementation `p` (R56, R205). -/
def slotSpells (p : Params) (slot : Slot) : Bool := (slotRefusal p slot).isNone

/-- Whether every entry of a program text spells an operation, so that the text is not refused (R205). -/
def programSpells (p : Params) (l : List Slot) : Bool := l.all (slotSpells p)

/-- Why a program text is refused: the reason of its first entry that spells no operation (R205; log 10). -/
def programRefusal (p : Params) (l : List Slot) : Option Refusal := l.findSome? (slotRefusal p)

/-- The operation at index `pc`. A program text with an entry that spells no operation "is refused before the run"
(R205): nothing of it is ever fetched, wherever that entry stands. Past the last entry the run has ended (R30, R206;
log 9). -/
def State.fetch (s : State) : Host.Outcome Instr Fault Refusal :=
  match programRefusal s.params s.program with
  | some r => .refused r
  | none =>
    match s.program[s.pc]? with
    | some slot => slotInstr slot
    | none => .fault .runEnded

/-- `pc <- pc + 1`, after every operation (R30). -/
def State.advance (s : State) : State := { s with pc := s.pc + 1 }

/-- A program with `x` at index `n` and its other entries kept; a list too short for that is filled with `x`. -/
def placeAt (l : List Slot) (n : Nat) (x : Slot) : List Slot :=
  l.take n ++ List.replicate (n - l.length) x ++ [x] ++ l.drop (n + 1)

end Sys2Proof.Machine
end

