-- ==== Sys2Proof/Machine/Step.lean ====
section
/-! DEFINITION. One step: the operation at index `pc` is executed, then `pc` advances by one (R30, R45). The fetch
refuses the whole program where an entry of it spells no operation (R205). -/

namespace Sys2Proof.Machine

/-- One step of the machine. -/
def step (s : State) : Host.Outcome State Fault Refusal :=
  match s.fetch with
  | .next i =>
    match exec i s with
    | .next t => .next t.advance
    | .fault r => .fault r
    | .refused r => .refused r
  | .fault r => .fault r
  | .refused r => .refused r

/-- `s` with the code word of an instruction whose bits are `w` as the entry the next step fetches; nothing else
changes. It stands for a program loaded from outside (log 8). -/
def State.withFetchWord (s : State) (nbits w : Nat) : State :=
  { s with program := placeAt s.program s.pc (.word (codeWordOf nbits w)) }

end Sys2Proof.Machine
end

