-- ==== Sys2Proof/Safety.lean ====
section
/-! DEFINITION. What a run needs to be one the spec describes: every entry of the program spells an operation (R205),
and the state is one a launch or a step can leave. -/

namespace Sys2Proof.Machine

/-- The invariant of a run: the program is one R205 does not refuse, `pc` is an index into it or its length (R30),
BIASRND is the constant 0 on a member without it (R22), and the layout gives each flag a bit of its own (R20). -/
def State.ok (s : State) : Bool :=
  programSpells s.params s.program && decide (s.pc ≤ s.program.length) && (s.params.hasBiasrnd || !s.biasrnd) &&
    s.params.astatLayout.valid

end Sys2Proof.Machine
end

