-- ==== Sys2Proof/Certificates/Slice0/Obligations.lean ====
section
/-! DEFINITION. The statements for the provers. The helpers under `Sys2Proof.Claims` say what a rule gives in terms of
integers and single bits, not in terms of the definitions the meanings use. The machine has no memory (R41), so no
frame below speaks of one. -/

open Sys2Proof Sys2Proof.Machine

namespace Sys2Proof.Claims

/-! ## Frames -/

/-- What every operation of the ALU, MAC, shifter, LOAD and MOVE leaves unchanged: the inactive bank, MSTAT, BIASRND,
`pc`, the program and the parameters. (The active bank and the flags are said by each statement.) -/
def KeepsRest (s t : State) : Prop :=
  t.inactiveBank = s.inactiveBank ∧ t.mstat = s.mstat ∧ t.biasrnd = s.biasrnd ∧ t.pc = s.pc ∧
    t.program = s.program ∧ t.params = s.params

/-! ## ALU -/

/-- An unsigned sum that does not fit 16 bits. -/
def carry16 (n : Nat) : Bool := decide (2 ^ 16 ≤ n)

/-- A signed result that does not fit 16 bits. -/
def outside16 (z : Int) : Bool := decide (z < -2 ^ 15 ∨ 2 ^ 15 ≤ z)

/-- A signed result clamped to 16 bits. -/
def clamp16 (z : Int) : Int := max (-2 ^ 15) (min (2 ^ 15 - 1) z)

/-- What R70, R73, R75 and R76 say of a standard ALU function with output `r`, carry `c`, overflow `v` and AS
afterwards `a`: it completes, writes the one destination (AR saturated by MSTAT[3], AF never), writes AZ, AN, AC, AV
(kept once set under MSTAT[2]) and AS, and changes no other register, flag or mode bit. -/
def AluResult (s : State) (i : Instr) (d : Adst) (r : Word) (c v a : Bool) : Prop :=
  ∃ t, exec i s = .next t ∧
    t.bank = (match d with
      | .ar =>
        { s.bank with ar := if s.mstat.getLsbD 3 && v then (if c then 0x8000#16 else 0x7FFF#16) else r }
      | .af => { s.bank with af := r }) ∧
    t.astat = { s.astat with
      az := decide (r = 0)
      an := r.getLsbD 15
      ac := c
      av := v || (s.mstat.getLsbD 2 && s.astat.av)
      as := a } ∧
    KeepsRest s t

/-- The borrow a with-borrow function subtracts: C - 1 (R96). -/
def borrow (s : State) : Nat := if s.astat.ac then 0 else 1

/-- The content of an ALU destination. -/
def adstValue (t : State) : Adst → Word
  | .ar => t.bank.ar
  | .af => t.bank.af

/-! ## Division -/

/-- An instruction executed `n` times in a row; none if one of them stops. -/
def execTimes (i : Instr) : Nat → State → Option State
  | 0, s => some s
  | n + 1, s =>
    match exec i s with
    | .next t => execTimes i n t
    | .fault _ => none
    | .refused _ => none

/-! ## MAC -/

/-- The product of the two operands as integers, each read as signed or unsigned by the format (R121, R122). -/
def exactProduct (s : State) (x : Mxop) (y : Myop) (f : Fmt) : Int :=
  (match f with
    | .ss | .su | .rnd => (s.readMxop x).toInt
    | .us | .uu => ((s.readMxop x).toNat : Int)) *
  (match f with
    | .ss | .us | .rnd => (s.readMyop y).toInt
    | .su | .uu => ((s.readMyop y).toNat : Int))

/-- What the product contributes to the 40-bit adder (R123): doubled in fractional mode; an unsigned by unsigned
product of 2^31 or more stands for itself minus 2^32 where MAC_UU_EXTEND is `sign`. -/
def placedProduct (s : State) (x : Mxop) (y : Myop) (f : Fmt) : Int :=
  let p := exactProduct s x y f
  (if f = .uu ∧ s.params.macUuExtend = .sign ∧ 2 ^ 31 ≤ p then p - 2 ^ 32 else p) *
    (if s.mstat.getLsbD 4 then 1 else 2)

/-- Rounding at the boundary of bits 16 and 15, on the integer halves (R130 to R132): up above the midpoint, down
below it, at the midpoint up when biased and to the even neighbour otherwise; bit 15 comes out inverted. -/
def roundedValue (biased : Bool) (v : BitVec 40) : BitVec 40 :=
  let hi := v.toNat / 2 ^ 16
  let lo := v.toNat % 2 ^ 16
  let up := decide (2 ^ 15 < lo) || (decide (lo = 2 ^ 15) && (biased || decide (hi % 2 = 1)))
  BitVec.ofNat 40 ((if up then hi + 1 else hi) * 2 ^ 16 + (lo + 2 ^ 15) % 2 ^ 16)

/-- What R125 and R126 say of a MAC operation whose adder output before rounding is `z` modulo 2^40: it completes,
writes MR (all 40 bits) or MF (bits 31..16), sets MV when the result leaves the signed 32-bit range, and changes
nothing else. -/
def MacResult (s : State) (i : Instr) (d : Mdst) (f : Fmt) (z : Int) : Prop :=
  let v := BitVec.ofInt 40 z
  let res := if f = .rnd then roundedValue (s.params.hasBiasrnd && s.biasrnd) v else v
  ∃ t, exec i s = .next t ∧
    t.bank = (match d with
      | .mr => { s.bank with
          mr2 := (res >>> 32).setWidth 8
          mr1 := (res >>> 16).setWidth 16
          mr0 := res.setWidth 16 }
      | .mf => { s.bank with mf := (res >>> 16).setWidth 16 }) ∧
    t.astat = { s.astat with mv := decide (res.toInt < -2 ^ 31 ∨ 2 ^ 31 ≤ res.toInt) } ∧
    KeepsRest s t

/-! ## Shifter -/

/-- What R150, R152 and R153 say of a shift of `inp` by code `c` with extension bit `ext`: bit `k` of SR is the input
bit `k - p` (0 right of the input, `ext` left of it), `p` the code plus 16 under HI, ORed with the old bit when [SR
OR] is named; only SR changes, and no flag. -/
def ShiftResult (s : State) (i : Instr) (inp : Word) (c : Int) (h : HiLo) (ext srOr : Bool) : Prop :=
  ∃ t, exec i s = .next t ∧
    (∀ k : Nat, k < 32 →
      t.bank.sr.getLsbD k =
        ((srOr && s.bank.sr.getLsbD k) ||
          (let j : Int := k - (c + if h = .hi then 16 else 0)
           if j < 0 then false else if j < 16 then inp.getLsbD j.toNat else ext))) ∧
    t.bank = { s.bank with sr1 := t.bank.sr1, sr0 := t.bank.sr0 } ∧
    t.astat = s.astat ∧
    KeepsRest s t

/-- What a shift of value `z` by code `c` leaves in SR: `v` with `read v` equal to `z` times 2^c rounded down, ORed with
the old SR when [SR OR] is named. -/
def ScaledInSr (s : State) (i : Instr) (read : BitVec 32 → Int) (z c : Int) (srOr : Bool) : Prop :=
  ∃ t v, exec i s = .next t ∧ read v = z * 2 ^ c.toNat / 2 ^ (-c).toNat ∧
    t.bank.sr = if srOr then s.bank.sr ||| v else v

/-- `k` is the number of leading bits of `v`, from bit 15 downward, that equal `b` (R156, R157). -/
def LeadingRun (v : Word) (b : Bool) (k : Nat) : Prop :=
  k ≤ 16 ∧ (∀ j < k, v.getLsbD (15 - j) = b) ∧ (k < 16 → v.getLsbD (15 - k) ≠ b)

/-- A shifter input that a shift result does not overwrite. -/
def notSr : Sxop → Bool
  | .sr0 => false
  | .sr1 => false
  | .si => true
  | .ar => true
  | .mr0 => true
  | .mr1 => true
  | .mr2 => true

/-- A normalised 32-bit value has one sign bit only. -/
def Normalised (v : BitVec 32) : Prop := v.getLsbD 31 ≠ v.getLsbD 30

/-! ## Transfers -/

/-- What a register of class `dreg` holds of a bus value, read back as it drives the bus (R25, R26). -/
def busKept (d : Dreg) (v : Word) : Word :=
  match d with
  | .mr2 | .se => (v.setWidth 8).signExtend 16
  | .sb => (v.setWidth 5).signExtend 16
  | .ax0 | .ax1 | .ay0 | .ay1 | .ar | .mx0 | .mx1 | .my0 | .my1 | .mr0 | .mr1 | .si | .sr0 | .sr1 => v

/-- What R26 and R27 say of a load of the bus value `v` into `d`: the register holds what it keeps of `v`, a load of
MR1 fills MR2 with its sign, and no other register, flag or mode bit changes. -/
def LoadEffect (s : State) (i : Instr) (d : Dreg) (v : Word) : Prop :=
  ∃ t, exec i s = .next t ∧
    t.bank.readDreg d = busKept d v ∧
    (d = .mr1 → t.bank.mr2 = if v.getLsbD 15 then 0xFF#8 else 0x00#8) ∧
    (∀ d', d' ≠ d → ¬ (d = .mr1 ∧ d' = .mr2) → t.bank.readDreg d' = s.bank.readDreg d') ∧
    t.bank.af = s.bank.af ∧ t.bank.mf = s.bank.mf ∧
    t.astat = s.astat ∧
    KeepsRest s t

/-! ## Classes of instructions -/

/-- The nineteen standard ALU functions (R52) and their destination. -/
def aluDst : Instr → Option Adst
  | .add d _ _ | .addc d _ _ | .sub d _ _ | .subb d _ _ | .rsub d _ _ | .rsubb d _ _ | .negx d _ | .negy d _
  | .inc d _ | .dec d _ | .passx d _ | .passy d _ | .pass0 d | .abs d _ | .logicAnd d _ _ | .logicOr d _ _
  | .logicXor d _ _ | .notx d _ | .noty d _ => some d
  | .divs .. | .divq .. | .mul .. | .macc .. | .msub .. | .mrclr | .satmr | .lshiftImm .. | .ashiftImm ..
  | .lshiftSe .. | .ashiftSe .. | .norm .. | .expHi .. | .expHix .. | .expLo .. | .expadj .. | .load .. | .move ..
  | .astatw .. | .mode .. | .bias .. => none

/-- The operations that pass the 40-bit adder (R126) and their destination. -/
def macDst : Instr → Option Mdst
  | .mul d _ _ _ | .macc d _ _ _ | .msub d _ _ _ => some d
  | .mrclr => some .mr
  | .add .. | .addc .. | .sub .. | .subb .. | .rsub .. | .rsubb .. | .negx .. | .negy .. | .inc .. | .dec ..
  | .passx .. | .passy .. | .pass0 .. | .abs .. | .logicAnd .. | .logicOr .. | .logicXor .. | .notx .. | .noty ..
  | .divs .. | .divq .. | .satmr | .lshiftImm .. | .ashiftImm .. | .lshiftSe .. | .ashiftSe .. | .norm ..
  | .expHi .. | .expHix .. | .expLo .. | .expadj .. | .load .. | .move .. | .astatw .. | .mode .. | .bias .. => none

/-- The operations whose result goes to SR (R158 to R162). -/
def shifts : Instr → Bool
  | .lshiftImm .. | .ashiftImm .. | .lshiftSe .. | .ashiftSe .. | .norm .. => true
  | .add .. | .addc .. | .sub .. | .subb .. | .rsub .. | .rsubb .. | .negx .. | .negy .. | .inc .. | .dec ..
  | .passx .. | .passy .. | .pass0 .. | .abs .. | .logicAnd .. | .logicOr .. | .logicXor .. | .notx .. | .noty ..
  | .divs .. | .divq .. | .mul .. | .macc .. | .msub .. | .mrclr | .satmr | .expHi .. | .expHix .. | .expLo ..
  | .expadj .. | .load .. | .move .. | .astatw .. | .mode .. | .bias .. => false

/-- Applies a function to the next state of an outcome. -/
def mapNext (f : State → State) : Out → Out
  | .next t => .next (f t)
  | .fault r => .fault r
  | .refused r => .refused r

end Sys2Proof.Claims

open Sys2Proof.Claims

/-! # Reset, step and run -/

/-- `pc` is 0 when the first operation starts: the one reset value the spec gives (10_state.md section 10). The other
conjuncts are the model's choices: registers 0 (log 1), flags, MSTAT and BIASRND 0 (log 2), program empty (log 8). -/
def Obligations.ResetValues : Prop :=
  State.reset.pc = 0 ∧ State.reset.prim = Bank.zero ∧ State.reset.sec = Bank.zero ∧
    State.reset.astat = Astat.clear ∧ State.reset.mstat = 0 ∧ State.reset.biasrnd = false ∧
    State.reset.program = []

/-- The invariant of `StepKeepsRunInvariant` holds at reset. -/
def Obligations.ResetSatisfiesRunInvariant : Prop := State.reset.ok = true

/-- Every step keeps the run invariant: the program stays one that is not refused (R205), `pc` an index into it or its
length (R30), BIASRND stays 0 on a member without it (R22), and the layout keeps giving each flag a bit of its own
(R20). -/
def Obligations.StepKeepsRunInvariant : Prop :=
  ∀ s t : State, s.ok = true → step s = .next t → t.ok = true

/-- In a program that is not refused, a step runs the operation the entry at `pc` stands for, decoded where it is a code
word, and then adds 1 to `pc` (R30). That entries may be code words is the model's choice (log 8, log 11). -/
def Obligations.StepRunsTheDecodedOperation : Prop :=
  ∀ (s : State) (i : Instr), programSpells s.params s.program = true →
    (s.program[s.pc]? = some (.op i) ∨ ∃ w, s.program[s.pc]? = some (.word w) ∧ decode w = .ok i) →
    i.wf s.params = true ∧ ∃ t, exec i s = .next t ∧ step s = .next { t with pc := t.pc + 1 }

/-- When a step stops before it executes anything. A program text with an entry that spells no operation is refused at
every `pc`, so before the run (R205, decision D28), and the refusal names the reason of the first such entry (log 10).
Past the last entry the run has ended (R30), which the model says by the fault `runEnded` (D27, log 9). -/
def Obligations.StepStopsAtEndOrBadWord : Prop :=
  (∀ s : State, programSpells s.params s.program = true → s.program[s.pc]? = none → step s = .fault .runEnded) ∧
  (∀ s : State, programSpells s.params s.program = false → ∃ r, step s = .refused r) ∧
  (∀ (s : State) (l m : List Slot) (i : Instr), s.program = l ++ .op i :: m → programSpells s.params l = true →
    i.wf s.params = false → step s = .refused .noSuchOperation) ∧
  (∀ (s : State) (l m : List Slot) (w : CodeWord) (e : DecodeError), s.program = l ++ .word w :: m →
    programSpells s.params l = true → decode w = .error e → step s = .refused (.badWord e))

/-- After every step `pc` is one more, and the program and the parameters are the same: no operation writes them
otherwise (R30, R47). -/
def Obligations.StepAdvancesTheIndexOnly : Prop :=
  ∀ s t : State, step s = .next t → t.pc = s.pc + 1 ∧ t.program = s.program ∧ t.params = s.params

/-- A program every entry of which spells an operation runs to its end without a stop, and the run ends exactly when
`pc` equals its length (R30, R200), which the model says by the fault `runEnded` (D27, log 9). -/
def Obligations.SpelledProgramRunsToItsEnd : Prop :=
  ∀ s : State, programSpells s.params s.program = true → s.pc ≤ s.program.length →
    ∃ t : State, Host.Core.run Sys2Proof.core (s.program.length - s.pc) s = .next t ∧
      t.pc = s.program.length ∧ t.program = s.program ∧ step t = .fault .runEnded

/-! # Whole-machine rules -/

/-- Every operation that exists completes, in every state, and no instruction at all raises a fault (R200, decision
D24; log 32). -/
def Obligations.EveryOperationCompletes : Prop :=
  ∀ (i : Instr) (s : State),
    (i.wf s.params = true → ∃ t, exec i s = .next t) ∧ (∀ r, exec i s ≠ .fault r)

/-- A form that spells no operation is refused by name: DIVS with AY0, and BIAS on a member without BIASRND (R56, the
spec's decision D28). That `exec` itself refuses it, beside the refusal of the program before the run (R205), and that
BIAS 0 is refused like BIAS 1, are the model's choices (log 10). -/
def Obligations.NonOperationsAreRefused : Prop :=
  (∀ (x : Axop) (s : State), exec (.divs .ay0 x) s = .refused .noSuchOperation) ∧
  (∀ (b : Bool) (s : State), s.params.hasBiasrnd = false → exec (.bias b) s = .refused .noSuchOperation)

/-- Who writes which flag (R19, column "Written by", and ASTATW): AZ, AN, AV, AC only the standard ALU functions, AS
only ABS, AQ only DIVS and DIVQ, MV only the operations of the MAC adder, SS only EXP (HI) and EXP (HIX). The spec
decides AQ alone for the divide primitives by D10 (log 18), MV kept by SAT MR by D15 (log 23), AS by ABS alone by D8
(log 30), SS not written by EXP (LO) and EXPADJ by D20 and D19 (log 25). -/
def Obligations.FlagsChangeOnlyByTheirWriters : Prop :=
  ∀ (i : Instr) (s t : State), exec i s = .next t → (∀ v, i ≠ .astatw v) →
    (aluDst i = none →
      t.astat.az = s.astat.az ∧ t.astat.an = s.astat.an ∧ t.astat.av = s.astat.av ∧ t.astat.ac = s.astat.ac) ∧
    ((∀ d x, i ≠ .abs d x) → t.astat.as = s.astat.as) ∧
    ((∀ y x, i ≠ .divs y x) → (∀ x, i ≠ .divq x) → t.astat.aq = s.astat.aq) ∧
    (macDst i = none → t.astat.mv = s.astat.mv) ∧
    ((∀ x, i ≠ .expHi x) → (∀ x, i ≠ .expHix x) → t.astat.ss = s.astat.ss)

/-- In overflow latch mode AV, once set, is cleared by no operation but a direct write of ASTAT (R75). That the
divide primitives leave AV is decision D10 (log 18). -/
def Obligations.LatchedOverflowStays : Prop :=
  ∀ (i : Instr) (s t : State), s.mstat.getLsbD 2 = true → s.astat.av = true → (∀ v, i ≠ .astatw v) →
    exec i s = .next t → t.astat.av = true

/-- MSTAT changes only by MODE and BIASRND only by BIAS (R185, R186, R203); the MSTAT bits that have no meaning (1 and
5 upward) never change (R21, decision D32; log 28). -/
def Obligations.ModeBitsChangeOnlyByTheirWriters : Prop :=
  ∀ (i : Instr) (s t : State), exec i s = .next t →
    ((∀ m e, i ≠ .mode m e) → t.mstat = s.mstat) ∧
    ((∀ b, i ≠ .bias b) → t.biasrnd = s.biasrnd) ∧
    (∀ k, k ≠ 0 → k ≠ 2 → k ≠ 3 → k ≠ 4 → t.mstat.getLsbD k = s.mstat.getLsbD k)

/-- The inactive bank keeps its contents under every operation (R18); a bank switch governs the next operation (D22, log
27). -/
def Obligations.InactiveBankIsKept : Prop :=
  ∀ (i : Instr) (s t : State), exec i s = .next t →
    (s.mstat.getLsbD 0 = false → t.sec = s.sec) ∧ (s.mstat.getLsbD 0 = true → t.prim = s.prim)

/-- The inactive bank cannot be read by any operation (R18): with other contents in it, an operation does the same and
leaves those contents. That a bank switch governs the next operation is decision D22 (log 27). -/
def Obligations.InactiveBankIsNotRead : Prop :=
  ∀ (i : Instr) (s : State) (b : Bank),
    (s.mstat.getLsbD 0 = false →
      exec i { s with sec := b } = mapNext (fun t => { t with sec := b }) (exec i s)) ∧
    (s.mstat.getLsbD 0 = true →
      exec i { s with prim := b } = mapNext (fun t => { t with prim := b }) (exec i s))

/-- Who writes which register of the active bank (R11, R14, R17, R24): AF only an ALU function with that destination or
a divide primitive, MF only a MAC operation with that destination. Beside the bus loads LOAD and MOVE: AR only an ALU
function with that destination, AY0 only a divide primitive, MR only a MAC operation with that destination or SAT MR, SR
only a shift or NORM, SE only EXP, SB only EXPADJ, the other input registers nothing. (What LOAD and MOVE leave alone
is in `LoadWritesOneRegister` and `MoveLoadsTheBusValue`.) MR kept with destination MF is decision D16 (log 21), SE kept
by EXPADJ is D19 (log 25). -/
def Obligations.RegistersChangeOnlyByTheirWriters : Prop :=
  ∀ (i : Instr) (s t : State), exec i s = .next t → (∀ m e, i ≠ .mode m e) →
    (aluDst i ≠ some .af → (∀ y x, i ≠ .divs y x) → (∀ x, i ≠ .divq x) → t.bank.af = s.bank.af) ∧
    (macDst i ≠ some .mf → t.bank.mf = s.bank.mf) ∧
    ((∀ d v, i ≠ .load d v) → (∀ d r, i ≠ .move d r) →
      (aluDst i ≠ some .ar → t.bank.ar = s.bank.ar) ∧
      ((∀ y x, i ≠ .divs y x) → (∀ x, i ≠ .divq x) → t.bank.ay0 = s.bank.ay0) ∧
      (macDst i ≠ some .mr → i ≠ .satmr →
        t.bank.mr0 = s.bank.mr0 ∧ t.bank.mr1 = s.bank.mr1 ∧ t.bank.mr2 = s.bank.mr2) ∧
      (shifts i = false → t.bank.sr0 = s.bank.sr0 ∧ t.bank.sr1 = s.bank.sr1) ∧
      ((∀ x, i ≠ .expHi x) → (∀ x, i ≠ .expHix x) → (∀ x, i ≠ .expLo x) → t.bank.se = s.bank.se) ∧
      ((∀ x, i ≠ .expadj x) → t.bank.sb = s.bank.sb) ∧
      t.bank.ax0 = s.bank.ax0 ∧ t.bank.ax1 = s.bank.ax1 ∧ t.bank.ay1 = s.bank.ay1 ∧
      t.bank.mx0 = s.bank.mx0 ∧ t.bank.mx1 = s.bank.mx1 ∧ t.bank.my0 = s.bank.my0 ∧ t.bank.my1 = s.bank.my1 ∧
      t.bank.si = s.bank.si)

/-! # Encoding (the annex of 30_encoding.md section 7: PRESUMED, log 11) -/

/-- Words printed beside the programs of 95_test_vectors.md section 7 decode to the operations they stand for. -/
def Obligations.SampleWordsDecode : Prop :=
  decode 0x22600F#24 = .ok (.add .ar .ax0 .ay0) ∧
  decode 0x26180F#24 = .ok (.pass0 .af) ∧
  decode 0x060800#24 = .ok (.divs .ay1 .ax0) ∧
  decode 0x071000#24 = .ok (.divq .ax0) ∧
  decode 0x24680F#24 = .ok (.msub .mf .mx0 .my1 .rnd) ∧
  decode 0x050000#24 = .ok .satmr ∧
  decode 0x0F20FE#24 = .ok (.ashiftImm .si 0xFE#8 .hi false) ∧
  decode 0x0E5B0F#24 = .ok (.norm .mr0 .lo true) ∧
  decode 0x0E6A0F#24 = .ok (.expHix .ar) ∧
  decode 0x3FFF06#24 = .ok (.load .sb 0xFFF0#16) ∧
  decode 0x0D0396#24 = .ok (.move .se .sb) ∧
  decode 0x0C0020#24 = .ok (.mode .secReg false)

/-- Decode and encode agree: every well-formed operation whose bits a word can hold decodes from its own word, with
every operand at every value. The words are the annex's (log 11); 14-bit constants, log 14. -/
def Obligations.DecodingAnEncodedOperation : Prop :=
  ∀ (p : Params) (i : Instr), i.wf p = true → i.encodable = true →
    ∃ w, encode i = some w ∧ decode w = .ok i

/-- Encode and decode agree: a word the decoder accepts is the word of the operation it reads, which is well formed;
so no two words mean one operation and every fixed bit is checked. The words are the annex's (log 11 to log 14). -/
def Obligations.EncodingADecodedWord : Prop :=
  ∀ (w : CodeWord) (i : Instr), decode w = .ok i →
    encode i = some w ∧ i.encodable = true ∧ ∀ p : Params, i.wf p = true

/-- A word that cuts a constant to 14 bits (SB, ASTAT) loses no effect, as long as the layout puts no flag at bits 14
or 15: the operation it decodes to does the same in every state. The 14-bit constants are the annex's (log 14). -/
def Obligations.EncodingLosesNoEffect : Prop :=
  ∀ (p : Params) (i : Instr) (w : CodeWord), i.wf p = true → encode i = some w →
    (∀ k ∈ p.astatLayout.positions, k.val < 14) →
    ∃ j, decode w = .ok j ∧ ∀ s : State, s.params = p → exec j s = exec i s

/-- `withFetchWord` puts a word where the next step fetches: beside a program that is not refused, that step runs the
operation the word decodes to, and every other entry of the program, like the rest of the state, is as before (the
model's own loader, log 8; the words are the annex's, log 11). -/
def Obligations.PlacedWordIsFetched : Prop :=
  ∀ (s : State) (w : CodeWord) (i : Instr), decode w = .ok i →
    (programSpells s.params s.program = true →
      programSpells s.params (s.withFetchWord 24 w.toNat).program = true ∧
      (s.withFetchWord 24 w.toNat).fetch = .next i) ∧
    (∀ n, n < s.program.length → n ≠ s.pc → (s.withFetchWord 24 w.toNat).program[n]? = s.program[n]?) ∧
    s.withFetchWord 24 w.toNat = { s with program := (s.withFetchWord 24 w.toNat).program }

/-! # ALU -/

/-- The adder (R71): sum, carry out of the most significant stage, overflow as the exclusive OR of the two top
carries, and the same overflow as a signed sum that does not fit 16 bits. -/
def Obligations.AdderCarryAndOverflow : Prop :=
  ∀ (a b : Word) (cin : Bool),
    (add16 a b cin).r = BitVec.ofNat 16 (a.toNat + b.toNat + cin.toNat) ∧
    (add16 a b cin).cout = decide (2 ^ 16 ≤ a.toNat + b.toNat + cin.toNat) ∧
    (add16 a b cin).ovf =
      xor (decide (2 ^ 15 ≤ a.toNat % 2 ^ 15 + b.toNat % 2 ^ 15 + cin.toNat)) (add16 a b cin).cout ∧
    (add16 a b cin).ovf = outside16 (a.toInt + b.toInt + cin.toNat)

/-- ADD and ADDC (R77, R78): the result, the carry of the unsigned sum, the overflow of the signed sum. The
flags written, and from the unsaturated output, are decisions D8 and D9 (log 17). -/
def Obligations.AddAndAddWithCarry : Prop :=
  ∀ (d : Adst) (x : Axop) (y : Ayop) (s : State),
    AluResult s (.add d x y) d (s.readAxop x + s.readAyop y)
      (carry16 ((s.readAxop x).toNat + (s.readAyop y).toNat))
      (outside16 ((s.readAxop x).toInt + (s.readAyop y).toInt)) s.astat.as ∧
    AluResult s (.addc d x y) d (s.readAxop x + s.readAyop y + BitVec.ofNat 16 s.astat.ac.toNat)
      (carry16 ((s.readAxop x).toNat + (s.readAyop y).toNat + s.astat.ac.toNat))
      (outside16 ((s.readAxop x).toInt + (s.readAyop y).toInt + s.astat.ac.toNat)) s.astat.as

/-- SUB, SUBB, RSUB, RSUBB (R79 to R82): AC is 1 exactly when there is no borrow. That AC and AV come from the one
adder pass is the family's behaviour (D7, log 15); the flags written, and from the unsaturated output, are D8 and D9
(log 17). -/
def Obligations.SubtractFunctions : Prop :=
  ∀ (d : Adst) (x : Axop) (y : Ayop) (s : State),
    AluResult s (.sub d x y) d (s.readAxop x - s.readAyop y)
      (decide ((s.readAyop y).toNat ≤ (s.readAxop x).toNat))
      (outside16 ((s.readAxop x).toInt - (s.readAyop y).toInt)) s.astat.as ∧
    AluResult s (.subb d x y) d (s.readAxop x - s.readAyop y - BitVec.ofNat 16 (borrow s))
      (decide ((s.readAyop y).toNat + borrow s ≤ (s.readAxop x).toNat))
      (outside16 ((s.readAxop x).toInt - (s.readAyop y).toInt - borrow s)) s.astat.as ∧
    AluResult s (.rsub d y x) d (s.readAyop y - s.readAxop x)
      (decide ((s.readAxop x).toNat ≤ (s.readAyop y).toNat))
      (outside16 ((s.readAyop y).toInt - (s.readAxop x).toInt)) s.astat.as ∧
    AluResult s (.rsubb d y x) d (s.readAyop y - s.readAxop x - BitVec.ofNat 16 (borrow s))
      (decide ((s.readAxop x).toNat + borrow s ≤ (s.readAyop y).toNat))
      (outside16 ((s.readAyop y).toInt - (s.readAxop x).toInt - borrow s)) s.astat.as

/-- NEGX, NEGY, INC, DEC (R83 to R86) with the operand values at which carry and overflow come out 1. That they are
adder passes is the family's behaviour (D7, log 15); the flags written, and from the unsaturated output, are D8 and D9
(log 17). -/
def Obligations.NegateIncrementDecrement : Prop :=
  ∀ (d : Adst) (x : Axop) (y : Ayop) (s : State),
    AluResult s (.negx d x) d (0 - s.readAxop x) (decide (s.readAxop x = 0x0000#16))
      (decide (s.readAxop x = 0x8000#16)) s.astat.as ∧
    AluResult s (.negy d y) d (0 - s.readAyop y) (decide (s.readAyop y = 0x0000#16))
      (decide (s.readAyop y = 0x8000#16)) s.astat.as ∧
    AluResult s (.inc d y) d (s.readAyop y + 1) (decide (s.readAyop y = 0xFFFF#16))
      (decide (s.readAyop y = 0x7FFF#16)) s.astat.as ∧
    AluResult s (.dec d y) d (s.readAyop y - 1) (decide (s.readAyop y ≠ 0x0000#16))
      (decide (s.readAyop y = 0x8000#16)) s.astat.as

/-- PASSX, PASSY, PASS0 (R87 to R89). AC and the overflow signal 0 is the family's behaviour (D8, log 16); that they
write these flags is D8 (log 17). -/
def Obligations.PassFunctions : Prop :=
  ∀ (d : Adst) (x : Axop) (y : Ayop) (s : State),
    AluResult s (.passx d x) d (s.readAxop x) false false s.astat.as ∧
    AluResult s (.passy d y) d (s.readAyop y) false false s.astat.as ∧
    AluResult s (.pass0 d) d 0x0000#16 false false s.astat.as

/-- ABS (R90): AC is 0 for every X, only -32768 overflows, AS takes the sign of X. That a negative X is negated in one
adder pass is decision D7 (log 15), the flags are D8 and D9 (log 16, log 17). -/
def Obligations.AbsoluteValue : Prop :=
  ∀ (d : Adst) (x : Axop) (s : State),
    AluResult s (.abs d x) d (BitVec.ofNat 16 (s.readAxop x).toInt.natAbs) false
      (decide (s.readAxop x = 0x8000#16)) ((s.readAxop x).getLsbD 15)

/-- AND, OR, XOR, NOTX, NOTY (R91 to R95). AC and the overflow signal 0 is the family's behaviour (D8, log 16); that
they write these flags is D8 (log 17). -/
def Obligations.LogicFunctions : Prop :=
  ∀ (d : Adst) (x : Axop) (y : Ayop) (s : State),
    AluResult s (.logicAnd d x y) d (s.readAxop x &&& s.readAyop y) false false s.astat.as ∧
    AluResult s (.logicOr d x y) d (s.readAxop x ||| s.readAyop y) false false s.astat.as ∧
    AluResult s (.logicXor d x y) d (s.readAxop x ^^^ s.readAyop y) false false s.astat.as ∧
    AluResult s (.notx d x) d (0xFFFF#16 - s.readAxop x) false false s.astat.as ∧
    AluResult s (.noty d y) d (0xFFFF#16 - s.readAyop y) false false s.astat.as

/-- The overflow latch mode and the saturation mode (R75, R76, Table 2.2), against the same operation with both modes
off: AV is kept once set, AR takes a full-scale value chosen by AC when this operation overflows, and AF, the other
registers and the other flags are as with the modes off. That the flags come from the unsaturated output is decision D9
(log 17). -/
def Obligations.SaturationAndLatchModes : Prop :=
  ∀ (i : Instr) (d : Adst) (s : State), aluDst i = some d →
    ∃ t u, exec i { s with mstat := s.mstat &&& 0xFFF3#16 } = .next t ∧ exec i s = .next u ∧
      u.bank = { t.bank with
        ar := if d = .ar ∧ s.mstat.getLsbD 3 = true ∧ t.astat.av = true then
            (if t.astat.ac then 0x8000#16 else 0x7FFF#16)
          else t.bank.ar } ∧
      u.astat = { t.astat with av := t.astat.av || (s.mstat.getLsbD 2 && s.astat.av) } ∧
      u.mstat = s.mstat

/-- In saturation mode AR holds the exact signed result clamped to 16 bits, for every arithmetic function (R76). The
carry and overflow that choose it for a subtraction, NEG, INC, DEC and ABS are decision D7 (log 15). -/
def Obligations.SaturationClampsTheExactResult : Prop :=
  ∀ (x : Axop) (y : Ayop) (s : State), s.mstat.getLsbD 3 = true →
    ∀ i z, (i, z) ∈ ([
        (.add .ar x y, (s.readAxop x).toInt + (s.readAyop y).toInt),
        (.addc .ar x y, (s.readAxop x).toInt + (s.readAyop y).toInt + s.astat.ac.toNat),
        (.sub .ar x y, (s.readAxop x).toInt - (s.readAyop y).toInt),
        (.subb .ar x y, (s.readAxop x).toInt - (s.readAyop y).toInt - borrow s),
        (.rsub .ar y x, (s.readAyop y).toInt - (s.readAxop x).toInt),
        (.rsubb .ar y x, (s.readAyop y).toInt - (s.readAxop x).toInt - borrow s),
        (.negx .ar x, -(s.readAxop x).toInt),
        (.negy .ar y, -(s.readAyop y).toInt),
        (.inc .ar y, (s.readAyop y).toInt + 1),
        (.dec .ar y, (s.readAyop y).toInt - 1),
        (.abs .ar x, ((s.readAxop x).toInt.natAbs : Int))] : List (Instr × Int)) →
      ∃ t, exec i s = .next t ∧ t.bank.ar.toInt = clamp16 z

/-- Multiprecision arithmetic (R96): ADD then ADDC is a 32-bit addition with its carry in AC, and SUB then SUBB a
32-bit subtraction with AC = 1 for no borrow, whatever the overflow of the low words. AR saturation must be off, or
the destination AF. AC of a subtraction is decision D7 (log 15). -/
def Obligations.MultiprecisionAddAndSubtract : Prop :=
  ∀ (d : Adst) (xl xh : Axop) (yl yh : Ayop) (s : State), (s.mstat.getLsbD 3 = false ∨ d = .af) →
    (∃ t u, exec (.add d xl yl) s = .next t ∧ exec (.addc d xh yh) t = .next u ∧
      adstValue u d ++ adstValue t d =
        ((t.readAxop xh ++ s.readAxop xl) + (t.readAyop yh ++ s.readAyop yl) : BitVec 32) ∧
      u.astat.ac = decide (2 ^ 32 ≤
        (t.readAxop xh ++ s.readAxop xl).toNat + (t.readAyop yh ++ s.readAyop yl).toNat)) ∧
    (∃ t u, exec (.sub d xl yl) s = .next t ∧ exec (.subb d xh yh) t = .next u ∧
      adstValue u d ++ adstValue t d =
        ((t.readAxop xh ++ s.readAxop xl) - (t.readAyop yh ++ s.readAyop yl) : BitVec 32) ∧
      u.astat.ac = decide (
        (t.readAyop yh ++ s.readAyop yl).toNat ≤ (t.readAxop xh ++ s.readAxop xl).toNat))

/-! # Division -/

/-- DIVS (R110): the pair made of the dividend's upper word and AY0 is shifted left one place into AF and AY0, the sign
of the quotient entering at bit 0 and in AQ; nothing else changes. AQ as the only flag is decision D10 (log 18), the
exclusive OR of the signs is conflict C1 (log 33). -/
def Obligations.DivideSign : Prop :=
  ∀ (y : Ayop) (x : Axop) (s : State), y ≠ .ay0 →
    ∃ t, exec (.divs y x) s = .next t ∧
      t.astat.aq = decide ((s.readAxop x).toInt < 0 ↔ ¬ (s.readAyop y).toInt < 0) ∧
      (t.bank.af ++ t.bank.ay0 : BitVec 32) =
        ((s.readAyop y ++ s.bank.ay0) <<< 1) + (if t.astat.aq then 1 else 0) ∧
      t.bank = { s.bank with af := t.bank.af, ay0 := t.bank.ay0 } ∧
      t.astat = { s.astat with aq := t.astat.aq } ∧
      KeepsRest s t

/-- DIVQ (R111): the divisor is added when AQ is 1 and subtracted when it is 0, AQ takes the exclusive OR of the signs
of the divisor and of that result, and the result with AY0 is shifted left one place into AF and AY0, the inverse of
the new AQ entering at bit 0; nothing else changes. AQ as the only flag is decision D10 (log 18), the divisor's sign is
conflict C2 (log 33). -/
def Obligations.DivideQuotientBit : Prop :=
  ∀ (x : Axop) (s : State),
    ∃ t, exec (.divq x) s = .next t ∧
      (let r : Word :=
        BitVec.ofInt 16 (s.bank.af.toInt + (if s.astat.aq then 1 else -1) * (s.readAxop x).toInt)
       t.astat.aq = decide ((s.readAxop x).toInt < 0 ↔ ¬ r.toInt < 0) ∧
       (t.bank.af ++ t.bank.ay0 : BitVec 32) =
        ((r ++ s.bank.ay0) <<< 1) + (if t.astat.aq then 0 else 1)) ∧
      t.bank = { s.bank with af := t.bank.af, ay0 := t.bank.ay0 } ∧
      t.astat = { s.astat with aq := t.astat.aq } ∧
      KeepsRest s t

/-- Unsigned division (R112, R113): with AQ clear, a divisor below 2^15 and no divide overflow, sixteen DIVQ leave in
AY0 the dividend AF:AY0 divided by twice the divisor, rounded down. (For a divisor of 2^15 or more the steps leave no
arithmetic quotient.) AQ from the sign of the divisor is conflict C2 (log 33). -/
def Obligations.UnsignedDivisionQuotient : Prop :=
  ∀ (x : Axop) (s : State), s.astat.aq = false → 0 < (s.readAxop x).toNat → (s.readAxop x).toNat < 2 ^ 15 →
    (s.bank.af ++ s.bank.ay0).toNat < 2 ^ 16 * (2 * (s.readAxop x).toNat) →
    ∃ t, execTimes (.divq x) 16 s = some t ∧
      t.bank.ay0.toNat = (s.bank.af ++ s.bank.ay0).toNat / (2 * (s.readAxop x).toNat)

/-- Signed division (R112, R113): DIVS and fifteen DIVQ leave in AY0 the quotient of the dividend by twice the divisor:
rounded down for a positive divisor, and the greatest integer strictly below it for a negative one, wherever that
fits 16 bits. The signs by exclusive OR and AQ from the divisor are conflicts C1 and C2 (log 33). -/
def Obligations.SignedDivisionQuotient : Prop :=
  ∀ (y : Ayop) (x : Axop) (s : State) (q : Int), y ≠ .ay0 → -2 ^ 15 ≤ q → q < 2 ^ 15 →
    (let n := (s.readAyop y ++ s.bank.ay0).toInt
     let d := 2 * (s.readAxop x).toInt
     (0 < d ∧ q * d ≤ n ∧ n < (q + 1) * d) ∨ (d < 0 ∧ (q + 1) * d ≤ n ∧ n < q * d)) →
    ∃ t u, exec (.divs y x) s = .next t ∧ execTimes (.divq x) 15 t = some u ∧ u.bank.ay0.toInt = q

/-! # MAC -/

/-- MUL, MACC, MSUB (R127 to R129) in all five formats, both placements and both destinations, as exact integers: the
new MR or MF, MV, and nothing else. MAC_UU_EXTEND is a parameter of the state (log 6). RND signed is D12 (log 19), the
low half after rounding D13 (log 20), MF keeping MR D16 (log 21), the wrap modulo 2^40 D17 (log 22). -/
def Obligations.MultiplyAccumulate : Prop :=
  ∀ (d : Mdst) (x : Mxop) (y : Myop) (f : Fmt) (s : State),
    MacResult s (.mul d x y f) d f (placedProduct s x y f) ∧
    MacResult s (.macc d x y f) d f (s.bank.mr.toInt + placedProduct s x y f) ∧
    MacResult s (.msub d x y f) d f (s.bank.mr.toInt - placedProduct s x y f)

/-- Rounding (R130, R131, R132): 1 added at bit 15 with its carry, bit 16 forced to 0 at a midpoint when unbiased; the
upper 24 bits round half to even (unbiased) or half up (biased), and bit 15 of MR0 comes out inverted. The low half
after rounding is decision D13, conflict C3 (log 20). -/
def Obligations.RoundingIsHalfToEvenOrHalfUp : Prop :=
  ∀ (biased : Bool) (v : BitVec 40),
    roundMac biased v = roundedValue biased v ∧
    (roundMac biased v).setWidth 16 = v.setWidth 16 ^^^ 0x8000#16 ∧
    roundMac true v = v + 0x8000#40 ∧
    (∀ k : Nat, k ≠ 16 → (roundMac false v).getLsbD k = (v + 0x8000#40).getLsbD k) ∧
    (roundMac false v).getLsbD 16 =
      ((v + 0x8000#40).getLsbD 16 && decide (v.setWidth 16 ≠ 0x8000#16))

/-- MRCLR (R133): MR and MV become 0, MF and everything else stays. That no form clears MF is decision D31 (log 36). -/
def Obligations.ClearAccumulator : Prop :=
  ∀ s : State, ∃ t, exec .mrclr s = .next t ∧
    t.bank = { s.bank with mr2 := 0, mr1 := 0, mr0 := 0 } ∧
    t.astat = { s.astat with mv := false } ∧ KeepsRest s t

/-- SATMR (R136, Table 2.3), by MV and the most significant bit of MR2; no flag is written (decision D15, log 23). MV
is read as it stands (log 37). -/
def Obligations.SaturateAccumulator : Prop :=
  ∀ s : State, ∃ t, exec .satmr s = .next t ∧
    t.bank = (if s.astat.mv then
      (if s.bank.mr2.getLsbD 7 then { s.bank with mr2 := 0xFF#8, mr1 := 0x8000#16, mr0 := 0x0000#16 }
        else { s.bank with mr2 := 0x00#8, mr1 := 0x7FFF#16, mr0 := 0xFFFF#16 })
      else s.bank) ∧
    t.astat = s.astat ∧ KeepsRest s t

/-- SAT MR directly after an operation that wrote MR clamps that result to the signed 32-bit range (R126, R136). That it
leaves the flags, MV among them, is decision D15 (log 23). -/
def Obligations.SaturationAfterAccumulationClamps : Prop :=
  ∀ (i : Instr) (s t : State), macDst i = some .mr → exec i s = .next t →
    ∃ u, exec .satmr t = .next u ∧
      u.bank.mr.toInt = max (-2 ^ 31) (min (2 ^ 31 - 1) t.bank.mr.toInt) ∧ u.astat = t.astat

/-! # Shifter -/

/-- The four LSHIFT and ASHIFT forms (R158 to R161), bit by bit: the code is `<exp>` or SE as a signed integer, the
extension bit 0 or the sign of the input. -/
def Obligations.ShiftForms : Prop :=
  ∀ (x : Sxop) (e : BitVec 8) (h : HiLo) (o : Bool) (s : State),
    ShiftResult s (.lshiftImm x e h o) (s.readSxop x) e.toInt h false o ∧
    ShiftResult s (.ashiftImm x e h o) (s.readSxop x) e.toInt h ((s.readSxop x).getLsbD 15) o ∧
    ShiftResult s (.lshiftSe x h o) (s.readSxop x) s.bank.se.toInt h false o ∧
    ShiftResult s (.ashiftSe x h o) (s.readSxop x) s.bank.se.toInt h ((s.readSxop x).getLsbD 15) o

/-- NORM (R162, R154), bit by bit: the code is the negated SE as an integer, the extension bit AC under HI and 0 under
LO. The code +128 for SE = -128 is the spec's decision D18 (log 24). -/
def Obligations.NormaliseForm : Prop :=
  ∀ (x : Sxop) (h : HiLo) (o : Bool) (s : State),
    ShiftResult s (.norm x h o) (s.readSxop x) (-s.bank.se.toInt) h (decide (h = .hi) && s.astat.ac) o

/-- An arithmetic shift under LO scales the signed value by a power of two, rounding down, and a logical one the
unsigned value (R150, R153, R154, R158 to R161), for every code up to +16, immediate or from SE. -/
def Obligations.ShiftsScaleByPowersOfTwo : Prop :=
  ∀ (x : Sxop) (e : BitVec 8) (o : Bool) (s : State),
    (e.toInt ≤ 16 →
      ScaledInSr s (.ashiftImm x e .lo o) (fun v => v.toInt) (s.readSxop x).toInt e.toInt o ∧
      ScaledInSr s (.lshiftImm x e .lo o) (fun v => v.toNat) (s.readSxop x).toNat e.toInt o) ∧
    (s.bank.se.toInt ≤ 16 →
      ScaledInSr s (.ashiftSe x .lo o) (fun v => v.toInt) (s.readSxop x).toInt s.bank.se.toInt o ∧
      ScaledInSr s (.lshiftSe x .lo o) (fun v => v.toNat) (s.readSxop x).toNat s.bank.se.toInt o)

/-- Denormalisation (R171): a logical shift of the low half under LO, then an arithmetic shift of the high half under
HI with [SR OR], both by SE, shift the 32-bit value made of the two halves: right arithmetically for a negative SE,
left for a positive one. -/
def Obligations.DenormalisationShifts32Bits : Prop :=
  ∀ (xl xh : Sxop) (s : State), notSr xh = true →
    ∃ t u, exec (.lshiftSe xl .lo false) s = .next t ∧ exec (.ashiftSe xh .hi true) t = .next u ∧
      u.bank.sr =
        (let v : BitVec 32 := s.readSxop xh ++ s.readSxop xl
         if s.bank.se.toInt < 0 then v.sshiftRight (-s.bank.se.toInt).toNat else v <<< s.bank.se.toInt.toNat)

/-- EXP (HI) and EXP (HIX) (R165, R166): SE takes minus the number of redundant sign bits and SS the sign of the input;
under HIX with AV set SE is +1 and SS the inverted sign; nothing else changes. That both always write SE and SS is
decision D20 (log 25), that HIX reads AV as it stands is log 37. -/
def Obligations.ExponentHighAndExtended : Prop :=
  ∀ (x : Sxop) (s : State),
    ∃ k : Nat, LeadingRun (s.readSxop x) ((s.readSxop x).getLsbD 15) k ∧
      (∃ t, exec (.expHi x) s = .next t ∧ t.bank.se.toInt = -((k : Int) - 1) ∧
        t.astat = { s.astat with ss := (s.readSxop x).getLsbD 15 } ∧
        t.bank = { s.bank with se := t.bank.se } ∧ KeepsRest s t) ∧
      (∃ t, exec (.expHix x) s = .next t ∧
        t.bank.se.toInt = (if s.astat.av then 1 else -((k : Int) - 1)) ∧
        t.astat = { s.astat with ss := xor s.astat.av ((s.readSxop x).getLsbD 15) } ∧
        t.bank = { s.bank with se := t.bank.se } ∧ KeepsRest s t)

/-- EXP (LO) (R167): when SE holds -15 it takes -15 minus the number of leading bits equal to SS, otherwise it stays;
no flag is written and nothing else changes. That SS is read and not written is decision D20 (log 25). -/
def Obligations.ExponentLow : Prop :=
  ∀ (x : Sxop) (s : State),
    ∃ k : Nat, LeadingRun (s.readSxop x) s.astat.ss k ∧
      ∃ t, exec (.expLo x) s = .next t ∧
        t.bank.se.toInt = (if s.bank.se.toInt = -15 then -15 - (k : Int) else s.bank.se.toInt) ∧
        t.bank = { s.bank with se := t.bank.se } ∧ t.astat = s.astat ∧ KeepsRest s t

/-- EXPADJ (R168): SB becomes the greater of itself and the input's exponent; no flag, not SE, nothing else changes. The
HI detector and no write of SE and SS are decision D19 (log 25). -/
def Obligations.BlockExponentIsTheMaximum : Prop :=
  ∀ (x : Sxop) (s : State),
    ∃ k : Nat, LeadingRun (s.readSxop x) ((s.readSxop x).getLsbD 15) k ∧
      ∃ t, exec (.expadj x) s = .next t ∧
        t.bank.sb.toInt = max s.bank.sb.toInt (-((k : Int) - 1)) ∧
        t.bank = { s.bank with sb := t.bank.sb } ∧ t.astat = s.astat ∧ KeepsRest s t

/-- Single-precision normalisation (R162, R165): EXP (HI) then NORM (HI) of the same input leave in SR the input times
2^(16 - SE), with no redundant sign bit unless the input is 0. That EXP (HI) always writes SE is decision D20 (log
25). -/
def Obligations.SinglePrecisionNormalisation : Prop :=
  ∀ (x : Sxop) (s : State),
    ∃ t u, exec (.expHi x) s = .next t ∧ exec (.norm x .hi false) t = .next u ∧
      -15 ≤ t.bank.se.toInt ∧ t.bank.se.toInt ≤ 0 ∧
      u.bank.sr.toInt = (s.readSxop x).toInt * 2 ^ (16 - t.bank.se.toInt).toNat ∧
      (s.readSxop x ≠ 0 → Normalised u.bank.sr)

/-- Double-precision normalisation (R162, R165, R167, R153): EXP (HI) of the high half, EXP (LO) of the low half, NORM
(HI) of the high half, then NORM (LO) of the low half with [SR OR], leave in SR the 32-bit value times 2^(-SE), with
no redundant sign bit unless the value is 0. That EXP (LO) reads SS, and EXP (HI) always writes SE and SS, is decision
D20 (log 25). -/
def Obligations.DoublePrecisionNormalisation : Prop :=
  ∀ (xh xl : Sxop) (s : State), notSr xl = true →
    ∃ t1 t2 t3 t4, exec (.expHi xh) s = .next t1 ∧ exec (.expLo xl) t1 = .next t2 ∧
      exec (.norm xh .hi false) t2 = .next t3 ∧ exec (.norm xl .lo true) t3 = .next t4 ∧
      (let v : BitVec 32 := s.readSxop xh ++ s.readSxop xl
       t2.bank.se.toInt ≤ 0 ∧ -31 ≤ t2.bank.se.toInt ∧ t4.bank.se = t2.bank.se ∧
       t4.bank.sr.toInt = v.toInt * 2 ^ (-t2.bank.se.toInt).toNat ∧
       (v ≠ 0 → Normalised t4.bank.sr))

/-- Normalisation of an ALU result that may have overflowed (R163, R166): after an addition or subtraction into AR with
saturation and latch off, EXP (HIX) and NORM (HI) of AR leave in SR the EXACT sum times 2^(16 - SE), whether or not it
overflowed, with no redundant sign bit unless the sum is 0. AC of a subtraction is decision D7 (log 15), that EXP (HIX)
always writes SE is D20 (log 25). -/
def Obligations.OverflowedResultNormalises : Prop :=
  ∀ (x : Axop) (y : Ayop) (s : State), s.mstat.getLsbD 2 = false → s.mstat.getLsbD 3 = false →
    ∀ i z, (i, z) ∈ ([
        (.add .ar x y, (s.readAxop x).toInt + (s.readAyop y).toInt),
        (.sub .ar x y, (s.readAxop x).toInt - (s.readAyop y).toInt),
        (.rsub .ar y x, (s.readAyop y).toInt - (s.readAxop x).toInt)] : List (Instr × Int)) →
      ∃ t u v, exec i s = .next t ∧ exec (.expHix .ar) t = .next u ∧ exec (.norm .ar .hi false) u = .next v ∧
        u.bank.se.toInt ≤ 1 ∧
        v.bank.sr.toInt = z * 2 ^ (16 - u.bank.se.toInt).toNat ∧
        (z ≠ 0 → Normalised v.bank.sr)

/-! # Register transfers, status and modes -/

/-- LOAD (R180, R26, R27). -/
def Obligations.LoadWritesOneRegister : Prop :=
  ∀ (d : Dreg) (v : Word) (s : State), LoadEffect s (.load d v) d v

/-- MOVE (R181): the value the source drives on the bus (MR2, SE, SB sign-extended, R25) is loaded into the
destination. That the operation exists is the family's (D34, log 26). -/
def Obligations.MoveLoadsTheBusValue : Prop :=
  ∀ (d r : Dreg) (s : State),
    LoadEffect s (.move d r) d
      (match r with
        | .mr2 => BitVec.ofInt 16 s.bank.mr2.toInt
        | .se => BitVec.ofInt 16 s.bank.se.toInt
        | .sb => BitVec.ofInt 16 s.bank.sb.toInt
        | .ax0 => s.bank.ax0 | .ax1 => s.bank.ax1 | .ay0 => s.bank.ay0 | .ay1 => s.bank.ay1
        | .ar => s.bank.ar | .mx0 => s.bank.mx0 | .mx1 => s.bank.mx1 | .my0 => s.bank.my0 | .my1 => s.bank.my1
        | .mr0 => s.bank.mr0 | .mr1 => s.bank.mr1 | .si => s.bank.si | .sr0 => s.bank.sr0 | .sr1 => s.bank.sr1)

/-- ASTATW (R184): every flag takes the bit its layout gives it, bits 0 to 7 under the family's layout, the latch mode
does not matter, and nothing else changes; a value of 0 clears all flags under any layout. The whole-register write
and the layout are presumed (D21, G4, log 7). -/
def Obligations.StatusWrite : Prop :=
  ∀ (v : Word) (s : State), ∃ t, exec (.astatw v) s = .next t ∧
    t.bank = s.bank ∧ KeepsRest s t ∧
    (let l := s.params.astatLayout
     t.astat = Astat.mk (v.getLsbD l.az) (v.getLsbD l.an) (v.getLsbD l.av) (v.getLsbD l.ac)
       (v.getLsbD l.as) (v.getLsbD l.aq) (v.getLsbD l.mv) (v.getLsbD l.ss)) ∧
    (s.params.astatLayout = AstatLayout.family →
      t.astat = Astat.mk (v.getLsbD 0) (v.getLsbD 1) (v.getLsbD 2) (v.getLsbD 3)
        (v.getLsbD 4) (v.getLsbD 5) (v.getLsbD 6) (v.getLsbD 7)) ∧
    (v = 0 → t.astat = Astat.mk false false false false false false false false)

/-- MODE (R185): the one bit of MSTAT the mode names takes 1 (ENA) or 0 (DIS), the other fifteen bits, both banks, the
flags and BIASRND stay; with SEC_REG the names denote the other bank from then on (R18; D22, log 27). -/
def Obligations.ModeWritesOneBit : Prop :=
  ∀ (m : Mode) (ena : Bool) (s : State), ∃ t, exec (.mode m ena) s = .next t ∧
    (let bit : Nat := match m with
       | .secReg => 0
       | .avLatch => 2
       | .arSat => 3
       | .mMode => 4
     t.mstat.getLsbD bit = ena ∧ (∀ k, k ≠ bit → t.mstat.getLsbD k = s.mstat.getLsbD k)) ∧
    t.prim = s.prim ∧ t.sec = s.sec ∧
    (m = .secReg → t.bank = if ena then s.sec else s.prim) ∧
    t.astat = s.astat ∧ t.biasrnd = s.biasrnd ∧ t.pc = s.pc ∧ t.program = s.program ∧ t.params = s.params

/-- BIAS (R186): BIASRND takes the operand on a member that has the bit, and nothing else changes. The
pseudo-operation is decision D38 (log 29). -/
def Obligations.BiasWrite : Prop :=
  ∀ (b : Bool) (s : State), s.params.hasBiasrnd = true →
    ∃ t, exec (.bias b) s = .next t ∧ t.biasrnd = b ∧
      t.prim = s.prim ∧ t.sec = s.sec ∧ t.astat = s.astat ∧ t.mstat = s.mstat ∧ t.pc = s.pc ∧
      t.program = s.program ∧ t.params = s.params
end

