-- ==== Sys2Proof/Laws/State.lean ====
section
/-! SUPPORT. What each update of a state or a bank leaves in each field, one lemma per field per update, so that no proof
unfolds a record update. -/

namespace Sys2Proof.Machine

/-! ## Replacing the active bank -/

@[simp] theorem State.setBank_astat (s : State) (b : Bank) : (s.setBank b).astat = s.astat := rfl
@[simp] theorem State.setBank_mstat (s : State) (b : Bank) : (s.setBank b).mstat = s.mstat := rfl
@[simp] theorem State.setBank_biasrnd (s : State) (b : Bank) : (s.setBank b).biasrnd = s.biasrnd := rfl
@[simp] theorem State.setBank_pc (s : State) (b : Bank) : (s.setBank b).pc = s.pc := rfl
@[simp] theorem State.setBank_program (s : State) (b : Bank) : (s.setBank b).program = s.program := rfl
@[simp] theorem State.setBank_params (s : State) (b : Bank) : (s.setBank b).params = s.params := rfl

@[simp] theorem State.setBank_prim (s : State) (b : Bank) :
    (s.setBank b).prim = if s.secReg then s.prim else b := rfl
@[simp] theorem State.setBank_sec (s : State) (b : Bank) :
    (s.setBank b).sec = if s.secReg then b else s.sec := rfl
@[simp] theorem State.setBank_secReg (s : State) (b : Bank) : (s.setBank b).secReg = s.secReg := rfl
@[simp] theorem State.setBank_avLatch (s : State) (b : Bank) : (s.setBank b).avLatch = s.avLatch := rfl
@[simp] theorem State.setBank_arSat (s : State) (b : Bank) : (s.setBank b).arSat = s.arSat := rfl
@[simp] theorem State.setBank_intMode (s : State) (b : Bank) : (s.setBank b).intMode = s.intMode := rfl
@[simp] theorem State.setBank_biased (s : State) (b : Bank) : (s.setBank b).biased = s.biased := rfl

/-- The active bank after it is replaced. -/
@[simp] theorem State.setBank_bank (s : State) (b : Bank) : (s.setBank b).bank = b := by
  unfold State.bank
  rw [State.setBank_secReg]
  cases h : s.secReg <;> simp [h]

/-- The inactive bank after the active one is replaced. -/
@[simp] theorem State.setBank_inactiveBank (s : State) (b : Bank) :
    (s.setBank b).inactiveBank = s.inactiveBank := by
  unfold State.inactiveBank
  rw [State.setBank_secReg]
  cases h : s.secReg <;> simp [h]

/-- The later of two replacements counts. -/
@[simp] theorem State.setBank_setBank (s : State) (b c : Bank) : (s.setBank b).setBank c = s.setBank c := by
  unfold State.setBank State.secReg
  cases s.mstat.getLsbD 0 <;> simp

/-- Replacing the active bank by itself changes nothing. -/
@[simp] theorem State.setBank_self (s : State) : s.setBank s.bank = s := by
  unfold State.setBank State.bank
  cases s.secReg <;> simp

/-! ## Replacing the flags -/

@[simp] theorem State.setAstat_prim (s : State) (f : Astat) : (s.setAstat f).prim = s.prim := rfl
@[simp] theorem State.setAstat_sec (s : State) (f : Astat) : (s.setAstat f).sec = s.sec := rfl
@[simp] theorem State.setAstat_mstat (s : State) (f : Astat) : (s.setAstat f).mstat = s.mstat := rfl
@[simp] theorem State.setAstat_biasrnd (s : State) (f : Astat) : (s.setAstat f).biasrnd = s.biasrnd := rfl
@[simp] theorem State.setAstat_pc (s : State) (f : Astat) : (s.setAstat f).pc = s.pc := rfl
@[simp] theorem State.setAstat_program (s : State) (f : Astat) : (s.setAstat f).program = s.program := rfl
@[simp] theorem State.setAstat_params (s : State) (f : Astat) : (s.setAstat f).params = s.params := rfl
@[simp] theorem State.setAstat_bank (s : State) (f : Astat) : (s.setAstat f).bank = s.bank := rfl
@[simp] theorem State.setAstat_inactiveBank (s : State) (f : Astat) : (s.setAstat f).inactiveBank = s.inactiveBank := rfl
@[simp] theorem State.setAstat_secReg (s : State) (f : Astat) : (s.setAstat f).secReg = s.secReg := rfl
@[simp] theorem State.setAstat_avLatch (s : State) (f : Astat) : (s.setAstat f).avLatch = s.avLatch := rfl
@[simp] theorem State.setAstat_arSat (s : State) (f : Astat) : (s.setAstat f).arSat = s.arSat := rfl
@[simp] theorem State.setAstat_intMode (s : State) (f : Astat) : (s.setAstat f).intMode = s.intMode := rfl
@[simp] theorem State.setAstat_biased (s : State) (f : Astat) : (s.setAstat f).biased = s.biased := rfl
@[simp] theorem State.setAstat_astat (s : State) (f : Astat) : (s.setAstat f).astat = f := rfl
@[simp] theorem State.setAstat_setAstat (s : State) (f g : Astat) : (s.setAstat f).setAstat g = s.setAstat g := rfl
@[simp] theorem State.setAstat_setBank (s : State) (f : Astat) (b : Bank) :
    (s.setAstat f).setBank b = (s.setBank b).setAstat f := rfl

/-! ## Advancing the index -/

@[simp] theorem State.advance_prim (s : State) : s.advance.prim = s.prim := rfl
@[simp] theorem State.advance_sec (s : State) : s.advance.sec = s.sec := rfl
@[simp] theorem State.advance_astat (s : State) : s.advance.astat = s.astat := rfl
@[simp] theorem State.advance_mstat (s : State) : s.advance.mstat = s.mstat := rfl
@[simp] theorem State.advance_biasrnd (s : State) : s.advance.biasrnd = s.biasrnd := rfl
@[simp] theorem State.advance_program (s : State) : s.advance.program = s.program := rfl
@[simp] theorem State.advance_params (s : State) : s.advance.params = s.params := rfl
@[simp] theorem State.advance_bank (s : State) : s.advance.bank = s.bank := rfl
@[simp] theorem State.advance_inactiveBank (s : State) : s.advance.inactiveBank = s.inactiveBank := rfl
@[simp] theorem State.advance_secReg (s : State) : s.advance.secReg = s.secReg := rfl
@[simp] theorem State.advance_pc (s : State) : s.advance.pc = s.pc + 1 := rfl

/-! ## Launching -/

@[simp] theorem State.launch_prim (p : Params) (a : Astat) (m : BitVec 16) (b : Bool) (l : List Slot) :
    (State.launch p a m b l).prim = Bank.zero := rfl
@[simp] theorem State.launch_sec (p : Params) (a : Astat) (m : BitVec 16) (b : Bool) (l : List Slot) :
    (State.launch p a m b l).sec = Bank.zero := rfl
@[simp] theorem State.launch_astat (p : Params) (a : Astat) (m : BitVec 16) (b : Bool) (l : List Slot) :
    (State.launch p a m b l).astat = a := rfl
@[simp] theorem State.launch_mstat (p : Params) (a : Astat) (m : BitVec 16) (b : Bool) (l : List Slot) :
    (State.launch p a m b l).mstat = m := rfl
@[simp] theorem State.launch_biasrnd (p : Params) (a : Astat) (m : BitVec 16) (b : Bool) (l : List Slot) :
    (State.launch p a m b l).biasrnd = (p.hasBiasrnd && b) := rfl
@[simp] theorem State.launch_pc (p : Params) (a : Astat) (m : BitVec 16) (b : Bool) (l : List Slot) :
    (State.launch p a m b l).pc = 0 := rfl
@[simp] theorem State.launch_program (p : Params) (a : Astat) (m : BitVec 16) (b : Bool) (l : List Slot) :
    (State.launch p a m b l).program = l := rfl
@[simp] theorem State.launch_params (p : Params) (a : Astat) (m : BitVec 16) (b : Bool) (l : List Slot) :
    (State.launch p a m b l).params = p := rfl

/-! ## Writing MR and SR whole -/

@[simp] theorem Bank.setMr_ax0 (b : Bank) (v : BitVec 40) : (b.setMr v).ax0 = b.ax0 := rfl
@[simp] theorem Bank.setMr_ax1 (b : Bank) (v : BitVec 40) : (b.setMr v).ax1 = b.ax1 := rfl
@[simp] theorem Bank.setMr_ay0 (b : Bank) (v : BitVec 40) : (b.setMr v).ay0 = b.ay0 := rfl
@[simp] theorem Bank.setMr_ay1 (b : Bank) (v : BitVec 40) : (b.setMr v).ay1 = b.ay1 := rfl
@[simp] theorem Bank.setMr_ar (b : Bank) (v : BitVec 40) : (b.setMr v).ar = b.ar := rfl
@[simp] theorem Bank.setMr_af (b : Bank) (v : BitVec 40) : (b.setMr v).af = b.af := rfl
@[simp] theorem Bank.setMr_mx0 (b : Bank) (v : BitVec 40) : (b.setMr v).mx0 = b.mx0 := rfl
@[simp] theorem Bank.setMr_mx1 (b : Bank) (v : BitVec 40) : (b.setMr v).mx1 = b.mx1 := rfl
@[simp] theorem Bank.setMr_my0 (b : Bank) (v : BitVec 40) : (b.setMr v).my0 = b.my0 := rfl
@[simp] theorem Bank.setMr_my1 (b : Bank) (v : BitVec 40) : (b.setMr v).my1 = b.my1 := rfl
@[simp] theorem Bank.setMr_mf (b : Bank) (v : BitVec 40) : (b.setMr v).mf = b.mf := rfl
@[simp] theorem Bank.setMr_si (b : Bank) (v : BitVec 40) : (b.setMr v).si = b.si := rfl
@[simp] theorem Bank.setMr_se (b : Bank) (v : BitVec 40) : (b.setMr v).se = b.se := rfl
@[simp] theorem Bank.setMr_sb (b : Bank) (v : BitVec 40) : (b.setMr v).sb = b.sb := rfl
@[simp] theorem Bank.setMr_sr0 (b : Bank) (v : BitVec 40) : (b.setMr v).sr0 = b.sr0 := rfl
@[simp] theorem Bank.setMr_sr1 (b : Bank) (v : BitVec 40) : (b.setMr v).sr1 = b.sr1 := rfl
@[simp] theorem Bank.setMr_mr0 (b : Bank) (v : BitVec 40) : (b.setMr v).mr0 = v.extractLsb' 0 16 := rfl
@[simp] theorem Bank.setMr_mr1 (b : Bank) (v : BitVec 40) : (b.setMr v).mr1 = v.extractLsb' 16 16 := rfl
@[simp] theorem Bank.setMr_mr2 (b : Bank) (v : BitVec 40) : (b.setMr v).mr2 = v.extractLsb' 32 8 := rfl

@[simp] theorem Bank.setSr_ax0 (b : Bank) (v : BitVec 32) : (b.setSr v).ax0 = b.ax0 := rfl
@[simp] theorem Bank.setSr_ax1 (b : Bank) (v : BitVec 32) : (b.setSr v).ax1 = b.ax1 := rfl
@[simp] theorem Bank.setSr_ay0 (b : Bank) (v : BitVec 32) : (b.setSr v).ay0 = b.ay0 := rfl
@[simp] theorem Bank.setSr_ay1 (b : Bank) (v : BitVec 32) : (b.setSr v).ay1 = b.ay1 := rfl
@[simp] theorem Bank.setSr_ar (b : Bank) (v : BitVec 32) : (b.setSr v).ar = b.ar := rfl
@[simp] theorem Bank.setSr_af (b : Bank) (v : BitVec 32) : (b.setSr v).af = b.af := rfl
@[simp] theorem Bank.setSr_mx0 (b : Bank) (v : BitVec 32) : (b.setSr v).mx0 = b.mx0 := rfl
@[simp] theorem Bank.setSr_mx1 (b : Bank) (v : BitVec 32) : (b.setSr v).mx1 = b.mx1 := rfl
@[simp] theorem Bank.setSr_my0 (b : Bank) (v : BitVec 32) : (b.setSr v).my0 = b.my0 := rfl
@[simp] theorem Bank.setSr_my1 (b : Bank) (v : BitVec 32) : (b.setSr v).my1 = b.my1 := rfl
@[simp] theorem Bank.setSr_mf (b : Bank) (v : BitVec 32) : (b.setSr v).mf = b.mf := rfl
@[simp] theorem Bank.setSr_mr0 (b : Bank) (v : BitVec 32) : (b.setSr v).mr0 = b.mr0 := rfl
@[simp] theorem Bank.setSr_mr1 (b : Bank) (v : BitVec 32) : (b.setSr v).mr1 = b.mr1 := rfl
@[simp] theorem Bank.setSr_mr2 (b : Bank) (v : BitVec 32) : (b.setSr v).mr2 = b.mr2 := rfl
@[simp] theorem Bank.setSr_si (b : Bank) (v : BitVec 32) : (b.setSr v).si = b.si := rfl
@[simp] theorem Bank.setSr_se (b : Bank) (v : BitVec 32) : (b.setSr v).se = b.se := rfl
@[simp] theorem Bank.setSr_sb (b : Bank) (v : BitVec 32) : (b.setSr v).sb = b.sb := rfl
@[simp] theorem Bank.setSr_sr0 (b : Bank) (v : BitVec 32) : (b.setSr v).sr0 = v.extractLsb' 0 16 := rfl
@[simp] theorem Bank.setSr_sr1 (b : Bank) (v : BitVec 32) : (b.setSr v).sr1 = v.extractLsb' 16 16 := rfl

/-- MR after it is written whole. -/
@[simp] theorem Bank.setMr_mr (b : Bank) (v : BitVec 40) : (b.setMr v).mr = v := by
  apply BitVec.eq_of_getLsbD_eq
  intro k hk
  rw [Bank.mr, Bank.setMr_mr2, Bank.setMr_mr1, Bank.setMr_mr0]
  erw [BitVec.getLsbD_append, BitVec.getLsbD_append]
  simp only [BitVec.getLsbD_extractLsb']
  by_cases h1 : k < 16
  · simp [h1]
  · by_cases h2 : k < 32
    · have h3 : k - 16 < 16 := by omega
      have h4 : 16 + (k - 16) = k := by omega
      simp [h1, h3, h4]
    · have h3 : ¬ k - 16 < 16 := by omega
      have h4 : 32 + (k - 16 - 16) = k := by omega
      have h5 : k - 16 - 16 < 8 := by omega
      simp [h1, h3, h4, h5]

/-- SR after it is written whole. -/
@[simp] theorem Bank.setSr_sr (b : Bank) (v : BitVec 32) : (b.setSr v).sr = v := by
  apply BitVec.eq_of_getLsbD_eq
  intro k hk
  rw [Bank.sr, Bank.setSr_sr1, Bank.setSr_sr0]
  erw [BitVec.getLsbD_append]
  simp only [BitVec.getLsbD_extractLsb']
  by_cases h1 : k < 16
  · simp [h1]
  · have h4 : 16 + (k - 16) = k := by omega
    have h5 : k - 16 < 16 := by omega
    simp [h1, h4, h5]

end Sys2Proof.Machine
end

