-- ==== Sys2Proof/Laws/Ops.lean ====
section
/-! SUPPORT. What each shared operation does, once: the bits of the shifter array, the run of leading bits, the end of
each class of operation, fetch and step. Later proofs cite these and do not unfold the operations. -/

namespace Sys2Proof.Machine

/-! ## Bits -/

/-- Every bit of a vector built from a function. -/
theorem getLsbD_bitsOf (f : Nat → Bool) (n k : Nat) : (bitsOf f n).getLsbD k = (decide (k < n) && f k) := by
  induction n with
  | zero => simp [bitsOf]
  | succ n ih =>
    rw [bitsOf, BitVec.getLsbD_cons, ih]
    by_cases h : k = n
    · subst h; simp
    · have : k < n + 1 ↔ k < n := by omega
      simp [h, this]

/-- Every bit of the shifter array's output. -/
theorem getLsbD_shiftArray (inp : Word) (c : Int) (h : HiLo) (ext : Bool) (k : Nat) :
    (shiftArray inp c h ext).getLsbD k = (decide (k < 32) && arrayBit inp (arrayPosition c h) ext k) :=
  getLsbD_bitsOf _ _ _

/-- Every bit of MSTAT after one bit is written. -/
theorem getLsbD_mstatWith (m : BitVec 16) (bit : Nat) (b : Bool) (k : Nat) (hb : bit < 16) :
    (mstatWith m bit b).getLsbD k = if k = bit then b else m.getLsbD k := by
  unfold mstatWith
  by_cases hk : k < 16
  · cases b <;> by_cases h : k = bit <;> simp [h, hk, hb]
  · have h : k ≠ bit := by omega
    have hm : m.getLsbD k = false := BitVec.getLsbD_of_ge _ _ (by omega)
    have h' : ¬ bit = k := by omega
    cases b <;> simp [BitVec.getLsbD_twoPow, h, h', hk, hm]

/-- The run of leading bits: its length, its bits, and the bit that ends it. -/
theorem leadRun_spec (v : Word) (b : Bool) (n : Nat) :
    leadRun v b n ≤ n ∧ (∀ j < leadRun v b n, v.getLsbD (n - 1 - j) = b) ∧
      (leadRun v b n < n → v.getLsbD (n - 1 - leadRun v b n) ≠ b) := by
  induction n with
  | zero => simp [leadRun]
  | succ n ih =>
    obtain ⟨hle, hrun, hstop⟩ := ih
    unfold leadRun
    by_cases h : v.getLsbD n = b
    · rw [if_pos h]
      refine ⟨by omega, fun j hj => ?_, fun hlt => ?_⟩
      · cases j with
        | zero => simpa using h
        | succ j =>
          have := hrun j (by omega)
          rwa [show n + 1 - 1 - (j + 1) = n - 1 - j by omega]
      · have := hstop (by omega)
        rwa [show n + 1 - 1 - (leadRun v b n + 1) = n - 1 - leadRun v b n by omega]
    · rw [if_neg h]
      exact ⟨by omega, by omega, fun _ => by simpa using h⟩

/-- The adder's output as a bit vector. -/
theorem add16_r (a b : Word) (cin : Bool) : (add16 a b cin).r = a + b + BitVec.ofNat 16 cin.toNat := by
  apply BitVec.eq_of_toNat_eq
  simp [add16, BitVec.toNat_add]

/-- MV in terms of the signed result. -/
theorem macMv_eq (v : BitVec 40) : macMv v = decide (v.toInt < -2 ^ 31 ∨ 2 ^ 31 ≤ v.toInt) := by
  have h0 : (v.extractLsb' 31 9).toNat = v.toNat / 2 ^ 31 := by
    have := v.isLt
    rw [BitVec.extractLsb'_toNat, Nat.shiftRight_eq_div_pow]
    omega
  have h1 : (v.extractLsb' 31 9 = 0b000000000#9) ↔ v.toNat / 2 ^ 31 = 0 := by
    rw [← BitVec.toNat_inj, h0]; simp
  have h2 : (v.extractLsb' 31 9 = 0b111111111#9) ↔ v.toNat / 2 ^ 31 = 511 := by
    rw [← BitVec.toNat_inj, h0]; simp
  have hlt := v.isLt
  rw [Bool.eq_iff_iff]
  simp only [macMv, Bool.not_eq_true', Bool.or_eq_false_iff, decide_eq_false_iff_not, decide_eq_true_eq, h1, h2]
  rw [BitVec.toInt_eq_toNat_cond]
  split <;> omega

/-! ## Registers -/

@[simp] theorem Bank.writeDreg_af (b : Bank) (d : Dreg) (v : Word) : (b.writeDreg d v).af = b.af := by
  cases d <;> rfl

@[simp] theorem Bank.writeDreg_mf (b : Bank) (d : Dreg) (v : Word) : (b.writeDreg d v).mf = b.mf := by
  cases d <;> rfl

/-- A load leaves every other bus register alone, but for MR2 beside MR1. -/
theorem Bank.readDreg_writeDreg_of_ne (b : Bank) (d d' : Dreg) (v : Word) (h : d' ≠ d)
    (hm : ¬ (d = .mr1 ∧ d' = .mr2)) : (b.writeDreg d v).readDreg d' = b.readDreg d' := by
  cases d <;> cases d' <;> first | rfl | exact absurd rfl h | exact absurd ⟨rfl, rfl⟩ hm

/-! ## The common ends of the operations -/

@[simp] theorem State.aluEnd_bank (s : State) (d : Adst) (o : AluOut) :
    (s.aluEnd d o).bank = s.bank.writeAdst s.arSat d o := by
  simp [State.aluEnd]
@[simp] theorem State.aluEnd_astat (s : State) (d : Adst) (o : AluOut) :
    (s.aluEnd d o).astat = aluFlags s.avLatch o s.astat := rfl
@[simp] theorem State.aluEnd_inactiveBank (s : State) (d : Adst) (o : AluOut) : (s.aluEnd d o).inactiveBank = s.inactiveBank := by
  simp [State.aluEnd]
@[simp] theorem State.aluEnd_mstat (s : State) (d : Adst) (o : AluOut) : (s.aluEnd d o).mstat = s.mstat := rfl
@[simp] theorem State.aluEnd_biasrnd (s : State) (d : Adst) (o : AluOut) : (s.aluEnd d o).biasrnd = s.biasrnd := rfl
@[simp] theorem State.aluEnd_pc (s : State) (d : Adst) (o : AluOut) : (s.aluEnd d o).pc = s.pc := rfl
@[simp] theorem State.aluEnd_program (s : State) (d : Adst) (o : AluOut) : (s.aluEnd d o).program = s.program := rfl
@[simp] theorem State.aluEnd_params (s : State) (d : Adst) (o : AluOut) : (s.aluEnd d o).params = s.params := rfl

@[simp] theorem State.divShift_bank (s : State) (r : Word) (q0 aq : Bool) :
    (s.divShift r q0 aq).bank = { s.bank with
      af := r.extractLsb' 0 15 ++ s.bank.ay0.extractLsb' 15 1
      ay0 := s.bank.ay0.extractLsb' 0 15 ++ BitVec.ofBool q0 } := by
  simp [State.divShift]
@[simp] theorem State.divShift_astat (s : State) (r : Word) (q0 aq : Bool) :
    (s.divShift r q0 aq).astat = { s.astat with aq := aq } := rfl
@[simp] theorem State.divShift_inactiveBank (s : State) (r : Word) (q0 aq : Bool) : (s.divShift r q0 aq).inactiveBank = s.inactiveBank := by
  simp [State.divShift]
@[simp] theorem State.divShift_mstat (s : State) (r : Word) (q0 aq : Bool) : (s.divShift r q0 aq).mstat = s.mstat := rfl
@[simp] theorem State.divShift_biasrnd (s : State) (r : Word) (q0 aq : Bool) : (s.divShift r q0 aq).biasrnd = s.biasrnd := rfl
@[simp] theorem State.divShift_pc (s : State) (r : Word) (q0 aq : Bool) : (s.divShift r q0 aq).pc = s.pc := rfl
@[simp] theorem State.divShift_program (s : State) (r : Word) (q0 aq : Bool) : (s.divShift r q0 aq).program = s.program := rfl
@[simp] theorem State.divShift_params (s : State) (r : Word) (q0 aq : Bool) : (s.divShift r q0 aq).params = s.params := rfl

@[simp] theorem State.macEnd_bank (s : State) (d : Mdst) (res : BitVec 40) :
    (s.macEnd d res).bank = s.bank.writeMdst d res := by
  simp [State.macEnd]
@[simp] theorem State.macEnd_astat (s : State) (d : Mdst) (res : BitVec 40) :
    (s.macEnd d res).astat = { s.astat with mv := macMv res } := rfl
@[simp] theorem State.macEnd_inactiveBank (s : State) (d : Mdst) (res : BitVec 40) : (s.macEnd d res).inactiveBank = s.inactiveBank := by
  simp [State.macEnd]
@[simp] theorem State.macEnd_mstat (s : State) (d : Mdst) (res : BitVec 40) : (s.macEnd d res).mstat = s.mstat := rfl
@[simp] theorem State.macEnd_biasrnd (s : State) (d : Mdst) (res : BitVec 40) : (s.macEnd d res).biasrnd = s.biasrnd := rfl
@[simp] theorem State.macEnd_pc (s : State) (d : Mdst) (res : BitVec 40) : (s.macEnd d res).pc = s.pc := rfl
@[simp] theorem State.macEnd_program (s : State) (d : Mdst) (res : BitVec 40) : (s.macEnd d res).program = s.program := rfl
@[simp] theorem State.macEnd_params (s : State) (d : Mdst) (res : BitVec 40) : (s.macEnd d res).params = s.params := rfl

@[simp] theorem State.srEnd_bank (s : State) (srOr : Bool) (a : BitVec 32) :
    (s.srEnd srOr a).bank = s.bank.setSr (if srOr then s.bank.sr ||| a else a) := by
  simp [State.srEnd]
@[simp] theorem State.srEnd_astat (s : State) (srOr : Bool) (a : BitVec 32) :
    (s.srEnd srOr a).astat = s.astat := rfl
@[simp] theorem State.srEnd_inactiveBank (s : State) (srOr : Bool) (a : BitVec 32) : (s.srEnd srOr a).inactiveBank = s.inactiveBank := by
  simp [State.srEnd]
@[simp] theorem State.srEnd_mstat (s : State) (srOr : Bool) (a : BitVec 32) : (s.srEnd srOr a).mstat = s.mstat := rfl
@[simp] theorem State.srEnd_biasrnd (s : State) (srOr : Bool) (a : BitVec 32) : (s.srEnd srOr a).biasrnd = s.biasrnd := rfl
@[simp] theorem State.srEnd_pc (s : State) (srOr : Bool) (a : BitVec 32) : (s.srEnd srOr a).pc = s.pc := rfl
@[simp] theorem State.srEnd_program (s : State) (srOr : Bool) (a : BitVec 32) : (s.srEnd srOr a).program = s.program := rfl
@[simp] theorem State.srEnd_params (s : State) (srOr : Bool) (a : BitVec 32) : (s.srEnd srOr a).params = s.params := rfl

@[simp] theorem State.expEnd_bank (s : State) (e : BitVec 8) (ss : Bool) :
    (s.expEnd e ss).bank = { s.bank with se := e } := by
  simp [State.expEnd]
@[simp] theorem State.expEnd_astat (s : State) (e : BitVec 8) (ss : Bool) :
    (s.expEnd e ss).astat = { s.astat with ss := ss } := rfl
@[simp] theorem State.expEnd_inactiveBank (s : State) (e : BitVec 8) (ss : Bool) : (s.expEnd e ss).inactiveBank = s.inactiveBank := by
  simp [State.expEnd]
@[simp] theorem State.expEnd_mstat (s : State) (e : BitVec 8) (ss : Bool) : (s.expEnd e ss).mstat = s.mstat := rfl
@[simp] theorem State.expEnd_biasrnd (s : State) (e : BitVec 8) (ss : Bool) : (s.expEnd e ss).biasrnd = s.biasrnd := rfl
@[simp] theorem State.expEnd_pc (s : State) (e : BitVec 8) (ss : Bool) : (s.expEnd e ss).pc = s.pc := rfl
@[simp] theorem State.expEnd_program (s : State) (e : BitVec 8) (ss : Bool) : (s.expEnd e ss).program = s.program := rfl
@[simp] theorem State.expEnd_params (s : State) (e : BitVec 8) (ss : Bool) : (s.expEnd e ss).params = s.params := rfl

/-! ## What no operation writes -/

/-- No operation writes `pc`, the program or the parameters. -/
theorem exec_keeps (i : Instr) (s t : State) (h : exec i s = .next t) :
    t.pc = s.pc ∧ t.program = s.program ∧ t.params = s.params := by
  cases i
  case divs y x => cases y <;> cases h <;> exact ⟨rfl, rfl, rfl⟩
  case bias b =>
    cases hb : s.params.hasBiasrnd <;> simp [exec, execBias, hb] at h
    subst h
    exact ⟨rfl, rfl, rfl⟩
  case satmr =>
    cases hv : s.astat.mv <;> simp [exec, execSatmr, hv] at h <;> subst h <;> exact ⟨rfl, rfl, rfl⟩
  case expHix x =>
    cases hv : s.astat.av <;> simp [exec, execExpHix, hv] at h <;> subst h <;> exact ⟨rfl, rfl, rfl⟩
  case expLo x =>
    simp only [exec, execExpLo] at h
    split at h <;> cases h <;> exact ⟨rfl, rfl, rfl⟩
  case expadj x =>
    simp only [exec, execExpadj] at h
    split at h <;> cases h <;> exact ⟨rfl, rfl, rfl⟩
  all_goals cases h; exact ⟨rfl, rfl, rfl⟩

/-! ## Fetch and step -/

/-- A program is not refused exactly when each entry spells an operation. -/
theorem programRefusal_eq_none_iff (p : Params) (l : List Slot) :
    programRefusal p l = none ↔ programSpells p l = true := by
  simp [programRefusal, programSpells, slotSpells, List.findSome?_eq_none_iff]

/-- The first entry that spells no operation gives the reason of the refusal. -/
theorem programRefusal_first (p : Params) (l m : List Slot) (x : Slot) (r : Refusal)
    (hl : programSpells p l = true) (hx : slotRefusal p x = some r) : programRefusal p (l ++ x :: m) = some r := by
  have h := (programRefusal_eq_none_iff p l).2 hl
  unfold programRefusal at h ⊢
  rw [List.findSome?_append, h]
  simp [hx]

/-- Everything a fetch that succeeds says: no entry is refused, `pc` is an index of the program, and its entry stands
for the operation, which spells one. -/
theorem State.fetch_next_iff (s : State) (i : Instr) :
    s.fetch = .next i ↔ programSpells s.params s.program = true ∧
      ∃ x, s.program[s.pc]? = some x ∧ slotInstr x = .next i ∧ i.wf s.params = true := by
  rw [← programRefusal_eq_none_iff]
  constructor
  · intro h
    unfold State.fetch at h
    split at h
    · cases h
    · rename_i hp
      split at h
      · rename_i x hx
        refine ⟨hp, x, hx, h, ?_⟩
        have hm : x ∈ s.program := List.mem_of_getElem? hx
        have hr := List.findSome?_eq_none_iff.1 hp x hm
        simp only [slotRefusal, h] at hr
        by_contra hw
        simp [hw] at hr
      · cases h
  · rintro ⟨hp, x, hx, hi, -⟩
    simp [State.fetch, hp, hx, hi]

/-- An operation in a program that is not refused is fetched as itself. -/
theorem State.fetch_op (s : State) (i : Instr) (hp : programSpells s.params s.program = true)
    (h : s.program[s.pc]? = some (.op i)) : s.fetch = .next i := by
  simp [State.fetch, (programRefusal_eq_none_iff _ _).2 hp, h, slotInstr]

/-- A code word in a program that is not refused is fetched as the operation it decodes to. -/
theorem State.fetch_word (s : State) (w : CodeWord) (i : Instr) (hp : programSpells s.params s.program = true)
    (h : s.program[s.pc]? = some (.word w)) (hd : decode w = .ok i) : s.fetch = .next i := by
  simp [State.fetch, (programRefusal_eq_none_iff _ _).2 hp, h, slotInstr, hd]

/-- A fetch that succeeds is below the end of the program. -/
theorem State.fetch_lt (s : State) (i : Instr) (h : s.fetch = .next i) : s.pc < s.program.length := by
  obtain ⟨-, x, hx, -⟩ := (State.fetch_next_iff s i).1 h
  exact (List.getElem?_eq_some_iff.1 hx).1

/-- Everything a step that answers a next state did. -/
theorem step_next_iff (s t : State) :
    step s = .next t ↔ ∃ i u, s.fetch = .next i ∧ exec i s = .next u ∧ t = u.advance := by
  constructor
  · intro h
    unfold step at h
    split at h
    · rename_i i hf
      split at h
      · rename_i u he
        exact ⟨i, u, hf, he, by cases h; rfl⟩
      · cases h
      · cases h
    · cases h
    · cases h
  · rintro ⟨i, u, hf, he, rfl⟩
    unfold step
    rw [hf]
    simp only [he]

end Sys2Proof.Machine
end

