-- ==== Sys2Proof/Laws/PerInstr.lean ====
section
/-! SUPPORT. The family `HasWord`, per instruction: every instruction but BIAS has a code word (R186: BIAS stands for a
store of the real program and is no statement of it). -/

namespace Sys2Proof.Laws

/-- An instruction is BIAS or has a code word. -/
def HasWord.Statement (i : Instr) : Prop := (∃ b, i = .bias b) ∨ (encode i).isSome = true

theorem HasWord.add (d : Adst) (x : Axop) (y : Ayop) : HasWord.Statement (.add d x y) := Or.inr rfl
theorem HasWord.addc (d : Adst) (x : Axop) (y : Ayop) : HasWord.Statement (.addc d x y) := Or.inr rfl
theorem HasWord.sub (d : Adst) (x : Axop) (y : Ayop) : HasWord.Statement (.sub d x y) := Or.inr rfl
theorem HasWord.subb (d : Adst) (x : Axop) (y : Ayop) : HasWord.Statement (.subb d x y) := Or.inr rfl
theorem HasWord.rsub (d : Adst) (y : Ayop) (x : Axop) : HasWord.Statement (.rsub d y x) := Or.inr rfl
theorem HasWord.rsubb (d : Adst) (y : Ayop) (x : Axop) : HasWord.Statement (.rsubb d y x) := Or.inr rfl
theorem HasWord.negx (d : Adst) (x : Axop) : HasWord.Statement (.negx d x) := Or.inr rfl
theorem HasWord.negy (d : Adst) (y : Ayop) : HasWord.Statement (.negy d y) := Or.inr rfl
theorem HasWord.inc (d : Adst) (y : Ayop) : HasWord.Statement (.inc d y) := Or.inr rfl
theorem HasWord.dec (d : Adst) (y : Ayop) : HasWord.Statement (.dec d y) := Or.inr rfl
theorem HasWord.passx (d : Adst) (x : Axop) : HasWord.Statement (.passx d x) := Or.inr rfl
theorem HasWord.passy (d : Adst) (y : Ayop) : HasWord.Statement (.passy d y) := Or.inr rfl
theorem HasWord.pass0 (d : Adst) : HasWord.Statement (.pass0 d) := Or.inr rfl
theorem HasWord.abs (d : Adst) (x : Axop) : HasWord.Statement (.abs d x) := Or.inr rfl
theorem HasWord.logicAnd (d : Adst) (x : Axop) (y : Ayop) : HasWord.Statement (.logicAnd d x y) := Or.inr rfl
theorem HasWord.logicOr (d : Adst) (x : Axop) (y : Ayop) : HasWord.Statement (.logicOr d x y) := Or.inr rfl
theorem HasWord.logicXor (d : Adst) (x : Axop) (y : Ayop) : HasWord.Statement (.logicXor d x y) := Or.inr rfl
theorem HasWord.notx (d : Adst) (x : Axop) : HasWord.Statement (.notx d x) := Or.inr rfl
theorem HasWord.noty (d : Adst) (y : Ayop) : HasWord.Statement (.noty d y) := Or.inr rfl
theorem HasWord.divs (y : Ayop) (x : Axop) : HasWord.Statement (.divs y x) := Or.inr rfl
theorem HasWord.divq (x : Axop) : HasWord.Statement (.divq x) := Or.inr rfl
theorem HasWord.mul (d : Mdst) (x : Mxop) (y : Myop) (f : Fmt) : HasWord.Statement (.mul d x y f) := Or.inr rfl
theorem HasWord.macc (d : Mdst) (x : Mxop) (y : Myop) (f : Fmt) : HasWord.Statement (.macc d x y f) := Or.inr rfl
theorem HasWord.msub (d : Mdst) (x : Mxop) (y : Myop) (f : Fmt) : HasWord.Statement (.msub d x y f) := Or.inr rfl
theorem HasWord.mrclr : HasWord.Statement (.mrclr) := Or.inr rfl
theorem HasWord.satmr : HasWord.Statement (.satmr) := Or.inr rfl
theorem HasWord.lshiftImm (x : Sxop) (e : BitVec 8) (h : HiLo) (srOr : Bool) : HasWord.Statement (.lshiftImm x e h srOr) := Or.inr rfl
theorem HasWord.ashiftImm (x : Sxop) (e : BitVec 8) (h : HiLo) (srOr : Bool) : HasWord.Statement (.ashiftImm x e h srOr) := Or.inr rfl
theorem HasWord.lshiftSe (x : Sxop) (h : HiLo) (srOr : Bool) : HasWord.Statement (.lshiftSe x h srOr) := Or.inr rfl
theorem HasWord.ashiftSe (x : Sxop) (h : HiLo) (srOr : Bool) : HasWord.Statement (.ashiftSe x h srOr) := Or.inr rfl
theorem HasWord.norm (x : Sxop) (h : HiLo) (srOr : Bool) : HasWord.Statement (.norm x h srOr) := Or.inr rfl
theorem HasWord.expHi (x : Sxop) : HasWord.Statement (.expHi x) := Or.inr rfl
theorem HasWord.expHix (x : Sxop) : HasWord.Statement (.expHix x) := Or.inr rfl
theorem HasWord.expLo (x : Sxop) : HasWord.Statement (.expLo x) := Or.inr rfl
theorem HasWord.expadj (x : Sxop) : HasWord.Statement (.expadj x) := Or.inr rfl
theorem HasWord.load (d : Dreg) (data : Word) : HasWord.Statement (.load d data) := by
  cases d <;> exact Or.inr rfl
theorem HasWord.move (d : Dreg) (src : Dreg) : HasWord.Statement (.move d src) := Or.inr rfl
theorem HasWord.astatw (data : Word) : HasWord.Statement (.astatw data) := Or.inr rfl
theorem HasWord.mode (m : Mode) (ena : Bool) : HasWord.Statement (.mode m ena) := Or.inr rfl
theorem HasWord.bias (b : Bool) : HasWord.Statement (.bias b) := Or.inl ⟨b, rfl⟩

end Sys2Proof.Laws
end

