-- ==== Sys2Proof/Tests/Slice0.lean ====
section
/-! SUPPORT. The model's own tests. Expected results are the vectors of 95_test_vectors.md (its section is named above
each group), words are written out from the annex of 30_encoding.md section 7. Then one witness for the hypotheses of
each statement that has some. -/

namespace Sys2Proof.Tests

open Sys2Proof Sys2Proof.Machine Sys2Proof.Claims

/-! ## WellFormed: one ill-formed term for each check -/

theorem test_wf_divs_ay0 : Instr.wf Params.standard (.divs .ay0 .ax0) = false := by decide
theorem test_wf_divs_af : Instr.wf Params.standard (.divs .af .ax0) = true := by decide
theorem test_wf_bias_absent : Instr.wf { Params.standard with hasBiasrnd := false } (.bias true) = false := by decide
theorem test_wf_bias_present : Instr.wf Params.standard (.bias true) = true := by decide

/-! ## Decoding: every constructor from a word written out from the annex -/

theorem test_decode_add : decodeTableWord 24 0b001000100110000000001111 = some (.add .ar .ax0 .ay0) := by decide
theorem test_decode_addc : decodeTableWord 24 0b001000100100100100001111 = some (.addc .ar .ax1 .ay1) := by decide
theorem test_decode_sub : decodeTableWord 24 0b001001101111001000001111 = some (.sub .af .ar .af) := by decide
theorem test_decode_subb : decodeTableWord 24 0b001000101100111100001111 = some (.subb .ar .sr1 .ay1) := by decide
theorem test_decode_rsub : decodeTableWord 24 0b001000110010001100001111 = some (.rsub .ar .ay0 .mr0) := by decide
theorem test_decode_rsubb : decodeTableWord 24 0b001001110100110000001111 = some (.rsubb .af .ay1 .mr1) := by decide
theorem test_decode_negx : decodeTableWord 24 0b001000110011110100001111 = some (.negx .ar .mr2) := by decide
theorem test_decode_negy : decodeTableWord 24 0b001000101011000000001111 = some (.negy .ar .af) := by decide
theorem test_decode_inc : decodeTableWord 24 0b001001100011000000001111 = some (.inc .af .af) := by decide
theorem test_decode_dec : decodeTableWord 24 0b001000110000100000001111 = some (.dec .ar .ay1) := by decide
theorem test_decode_passx : decodeTableWord 24 0b001001100111111000001111 = some (.passx .af .sr0) := by decide
theorem test_decode_passy : decodeTableWord 24 0b001000100001000000001111 = some (.passy .ar .af) := by decide
theorem test_decode_pass0 : decodeTableWord 24 0b001001100001100000001111 = some (.pass0 .af) := by decide
theorem test_decode_abs : decodeTableWord 24 0b001000111110001000001111 = some (.abs .ar .ar) := by decide
theorem test_decode_and : decodeTableWord 24 0b001000111000000100001111 = some (.logicAnd .ar .ax1 .ay0) := by decide
theorem test_decode_or : decodeTableWord 24 0b001000111010100000001111 = some (.logicOr .ar .ax0 .ay1) := by decide
theorem test_decode_xor : decodeTableWord 24 0b001000111101011100001111 = some (.logicXor .ar .sr1 .af) := by decide
theorem test_decode_notx : decodeTableWord 24 0b001000110110010000001111 = some (.notx .ar .mr1) := by decide
theorem test_decode_noty : decodeTableWord 24 0b001001101000100000001111 = some (.noty .af .ay1) := by decide
theorem test_decode_divs : decodeTableWord 24 0b000001100000100000000000 = some (.divs .ay1 .ax0) := by decide
theorem test_decode_divq : decodeTableWord 24 0b000001110001000100000000 = some (.divq .ax1) := by decide
theorem test_decode_mul : decodeTableWord 24 0b001000001110000100001111 = some (.mul .mr .mx1 .my0 .uu) := by decide
theorem test_decode_macc : decodeTableWord 24 0b001000010011001000001111 = some (.macc .mr .ar .mf .su) := by decide
theorem test_decode_msub : decodeTableWord 24 0b001001000110100000001111 = some (.msub .mf .mx0 .my1 .rnd) := by decide
theorem test_decode_mrclr : decodeTableWord 24 0b001000001001100000001111 = some (.mrclr) := by decide
theorem test_decode_satmr : decodeTableWord 24 0b000001010000000000000000 = some (.satmr) := by decide
theorem test_decode_lshiftImm : decodeTableWord 24 0b000011110001000000000100 = some (.lshiftImm .si 0x04#8 .lo false) := by decide
theorem test_decode_ashiftImm : decodeTableWord 24 0b000011110010101011111110 = some (.ashiftImm .ar 0xFE#8 .hi true) := by decide
theorem test_decode_lshiftSe : decodeTableWord 24 0b000011100000011000001111 = some (.lshiftSe .sr0 .hi false) := by decide
theorem test_decode_ashiftSe : decodeTableWord 24 0b000011100011100000001111 = some (.ashiftSe .si .lo true) := by decide
theorem test_decode_norm : decodeTableWord 24 0b000011100101101100001111 = some (.norm .mr0 .lo true) := by decide
theorem test_decode_expHi : decodeTableWord 24 0b000011100110010000001111 = some (.expHi .mr1) := by decide
theorem test_decode_expHix : decodeTableWord 24 0b000011100110101000001111 = some (.expHix .ar) := by decide
theorem test_decode_expLo : decodeTableWord 24 0b000011100111001100001111 = some (.expLo .mr0) := by decide
theorem test_decode_expadj : decodeTableWord 24 0b000011100111100000001111 = some (.expadj .si) := by decide
theorem test_decode_load : decodeTableWord 24 0b010010110110101000111000 = some (.load .si 0xB6A3#16) := by decide
theorem test_decode_load_sb : decodeTableWord 24 0b001111111111111100000110 = some (.load .sb 0xFFF0#16) := by decide
theorem test_decode_move : decodeTableWord 24 0b000011010000001110010110 = some (.move .se .sb) := by decide
theorem test_decode_astatw : decodeTableWord 24 0b001111000000001001000000 = some (.astatw 0x0024#16) := by decide
theorem test_decode_mode : decodeTableWord 24 0b000011000000110000000000 = some (.mode .arSat true) := by decide

/-- BIAS stands for no word (R186). -/
theorem test_encode_bias : encode (.bias true) = none := by decide

theorem test_refuse_divs_ay0 : decode 0b000001100000000000000000#24 = .error .noYOperand := by decide
theorem test_refuse_conditional : decode 0b001000100110000000000000#24 = .error .conditional := by decide
theorem test_refuse_shifter_001 : decode 0b000011100000000100001111#24 = .error .noShifterInput := by decide
theorem test_refuse_mstat_load : decode 0b001111000000000000000001#24 = .error .noRegister := by decide
theorem test_refuse_two_modes : decode 0b000011000011110000000000#24 = .error .notOneMode := by decide
theorem test_refuse_zeros : decode 0b000000000000000000000000#24 = .error .noPattern := by decide
theorem test_refuse_amf_zero : decode 0b001000000000000000001111#24 = .error .noFunction := by decide
theorem test_refuse_fixed_bit : decode 0b001000100110000000011111#24 = .error .fixedBit := by decide

/-! ## One step of each instruction -/

/-- A state with the given active bank, flags (bits 0 AZ to 7 SS) and MSTAT. -/
def start (b : Bank) (flags mstat : Word) : State :=
  { State.launch Params.standard (astatOf AstatLayout.family flags) mstat false [] with prim := b }

/-- What `f` reads of the next state, where there is one. -/
def seen {α : Type} (o : Out) (f : State → α) : Option α :=
  match o with
  | .next t => some (f t)
  | .fault _ => none
  | .refused _ => none

/-- AR, AZ, AN, AV, AC after an ALU function, from AX0, AY0 and AC. -/
def aluRow (i : Instr) (x y : Word) (c : Bool) : Option (Word × Bool × Bool × Bool × Bool) :=
  seen (exec i (start { Bank.zero with ax0 := x, ay0 := y } (if c then 0x08#16 else 0x00#16) 0))
    fun t => (t.bank.ar, t.astat.az, t.astat.an, t.astat.av, t.astat.ac)

/-! 95_test_vectors.md section 2. -/

theorem test_add_negative_overflow : aluRow (.add .ar .ax0 .ay0) 0x8000#16 0x8000#16 true =
    some (0x0000#16, true, false, true, true) := by decide
theorem test_add_carry : aluRow (.add .ar .ax0 .ay0) 0xFFFF#16 0x0001#16 false =
    some (0x0000#16, true, false, false, true) := by decide
theorem test_addc : aluRow (.addc .ar .ax0 .ay0) 0x7FFF#16 0x0000#16 true =
    some (0x8000#16, false, true, true, false) := by decide
theorem test_sub_borrow : aluRow (.sub .ar .ax0 .ay0) 0x0003#16 0x0005#16 true =
    some (0xFFFE#16, false, true, false, false) := by decide
theorem test_sub_overflow : aluRow (.sub .ar .ax0 .ay0) 0x8000#16 0x0001#16 false =
    some (0x7FFF#16, false, false, true, true) := by decide
theorem test_subb : aluRow (.subb .ar .ax0 .ay0) 0x0005#16 0x0003#16 false =
    some (0x0001#16, false, false, false, true) := by decide
theorem test_rsub : aluRow (.rsub .ar .ay0 .ax0) 0x0005#16 0x0003#16 false =
    some (0xFFFE#16, false, true, false, false) := by decide
theorem test_rsubb : aluRow (.rsubb .ar .ay0 .ax0) 0xFFFF#16 0x7FFF#16 true =
    some (0x8000#16, false, true, true, false) := by decide
theorem test_negx_zero : aluRow (.negx .ar .ax0) 0x0000#16 0x0005#16 false =
    some (0x0000#16, true, false, false, true) := by decide
theorem test_negx_min : aluRow (.negx .ar .ax0) 0x8000#16 0x0000#16 false =
    some (0x8000#16, false, true, true, false) := by decide
theorem test_negy : aluRow (.negy .ar .ay0) 0x0005#16 0x1234#16 false =
    some (0xEDCC#16, false, true, false, false) := by decide
theorem test_inc : aluRow (.inc .ar .ay0) 0x0000#16 0x7FFF#16 true =
    some (0x8000#16, false, true, true, false) := by decide
theorem test_dec : aluRow (.dec .ar .ay0) 0x0000#16 0x0000#16 false =
    some (0xFFFF#16, false, true, false, false) := by decide
theorem test_passx : aluRow (.passx .ar .ax0) 0x8001#16 0x0000#16 true =
    some (0x8001#16, false, true, false, false) := by decide
theorem test_passy : aluRow (.passy .ar .ay0) 0x0005#16 0x0000#16 true =
    some (0x0000#16, true, false, false, false) := by decide
theorem test_pass0 : aluRow (.pass0 .ar) 0x0005#16 0x0005#16 true =
    some (0x0000#16, true, false, false, false) := by decide
theorem test_abs : aluRow (.abs .ar .ax0) 0xFFFB#16 0x0000#16 true =
    some (0x0005#16, false, false, false, false) := by decide
theorem test_and : aluRow (.logicAnd .ar .ax0 .ay0) 0xF0F0#16 0xFF00#16 true =
    some (0xF000#16, false, true, false, false) := by decide
theorem test_or : aluRow (.logicOr .ar .ax0 .ay0) 0xF0F0#16 0x0F00#16 true =
    some (0xFFF0#16, false, true, false, false) := by decide
theorem test_xor : aluRow (.logicXor .ar .ax0 .ay0) 0x1234#16 0x00FF#16 true =
    some (0x12CB#16, false, false, false, false) := by decide
theorem test_notx : aluRow (.notx .ar .ax0) 0x1234#16 0x0000#16 false =
    some (0xEDCB#16, false, true, false, false) := by decide
theorem test_noty : aluRow (.noty .ar .ay0) 0x0000#16 0x7FFF#16 true =
    some (0x8000#16, false, true, false, false) := by decide

theorem test_abs_sign : seen (exec (.abs .af .ax0) (start { Bank.zero with ax0 := 0x8000#16 } 0 0x8#16))
    (fun t => (t.bank.ar, t.bank.af, t.astat.av, t.astat.as)) = some (0x0000#16, 0x8000#16, true, true) := by decide
/-- Section 2.1: saturation by this operation's carry, with destination AR. -/
theorem test_saturation : seen
    (exec (.add .ar .ax0 .ay0) (start { Bank.zero with ax0 := 0x8000#16, ay0 := 0xFFFF#16 } 0 0x8#16))
    (fun t => (t.bank.ar, t.astat.an)) = some (0x8000#16, false) := by decide
/-- Section 2.2: the latched AV does not saturate, and stays. -/
theorem test_latch : seen
    (exec (.add .ar .ax0 .ay0) (start { Bank.zero with ax0 := 1#16, ay0 := 1#16 } 0x04#16 0xC#16))
    (fun t => (t.bank.ar, t.astat.av)) = some (0x0002#16, true) := by decide

/-! Section 3: division. -/

theorem test_divs : seen
    (exec (.divs .ay1 .ax0) (start { Bank.zero with ay1 := 0xE000#16, ax0 := 0x4000#16 } 0 0))
    (fun t => (t.bank.af, t.bank.ay0, t.astat.aq)) = some (0xC000#16, 0x0001#16, true) := by decide
theorem test_divs_both_negative : seen
    (exec (.divs .ay1 .ax0) (start { Bank.zero with ay1 := 0xE000#16, ax0 := 0xC000#16 } 0 0))
    (fun t => (t.bank.af, t.bank.ay0, t.astat.aq)) = some (0xC000#16, 0x0000#16, false) := by decide
theorem test_divq_subtract : seen
    (exec (.divq .ax0) (start { Bank.zero with af := 0x4000#16, ax0 := 0x4000#16 } 0 0))
    (fun t => (t.bank.af, t.bank.ay0, t.astat.aq)) = some (0x0000#16, 0x0001#16, false) := by decide
theorem test_divq_add : seen
    (exec (.divq .ax0) (start { Bank.zero with af := 0xFFFE#16, ay0 := 0x8000#16, ax0 := 0x0007#16 } 0x20#16 0))
    (fun t => (t.bank.af, t.bank.ay0, t.astat.aq)) = some (0x000B#16, 0x0001#16, false) := by decide

/-! Section 4: MAC. -/

/-- MR and MV after a MAC operation, from MX0, MY0, the old MR and MSTAT. -/
def macRow (i : Instr) (x y : Word) (mr : BitVec 40) (m : Word) : Option (BitVec 40 × Bool) :=
  seen (exec i (start ({ Bank.zero with mx0 := x, my0 := y }.setMr mr) 0x40#16 m)) fun t => (t.bank.mr, t.astat.mv)

theorem test_mul : macRow (.mul .mr .mx0 .my0 .uu) 0xFFFF#16 0xFFFF#16 0x1234567890#40 0x0#16 =
    some (0xFFFFFC0002#40, false) := by decide
theorem test_mul_integer : macRow (.mul .mr .mx0 .my0 .su) 0xFFFF#16 0x0002#16 0x0000000000#40 0x10#16 =
    some (0xFFFFFFFFFE#40, false) := by decide
theorem test_macc_wrap : macRow (.macc .mr .mx0 .my0 .ss) 0x7FFF#16 0x7FFF#16 0x7FFFFFFFFF#40 0x0#16 =
    some (0x807FFE0001#40, true) := by decide
theorem test_macc_round : macRow (.macc .mr .mx0 .my0 .rnd) 0x0000#16 0x0000#16 0x0000668000#40 0x0#16 =
    some (0x0000660000#40, false) := by decide
theorem test_msub : macRow (.msub .mr .mx0 .my0 .ss) 0x7FFF#16 0x7FFF#16 0xFF80000000#40 0x0#16 =
    some (0xFF0001FFFE#40, true) := by decide
theorem test_msub_round : macRow (.msub .mr .mx0 .my0 .rnd) 0x4000#16 0x0001#16 0x0000018000#40 0x0#16 =
    some (0x0000018000#40, false) := by decide
theorem test_mrclr : macRow (.mrclr) 0x0001#16 0x0001#16 0x1234567890#40 0x0#16 =
    some (0x0000000000#40, false) := by decide
theorem test_satmr_positive : macRow (.satmr) 0x0000#16 0x0000#16 0x00FFFD0002#40 0x0#16 =
    some (0x007FFFFFFF#40, true) := by decide
theorem test_satmr_negative : macRow (.satmr) 0x0000#16 0x0000#16 0xFF0001FFFE#40 0x0#16 =
    some (0xFF80000000#40, true) := by decide

/-! Section 5: shifter. -/

/-- SR after a shift of SI, from SE, the old SR and AC. -/
def shiftRow (i : Instr) (si : Word) (se : BitVec 8) (sr : BitVec 32) (c : Bool) : Option (BitVec 32) :=
  seen (exec i (start ({ Bank.zero with si := si, se := se }.setSr sr) (if c then 0x08#16 else 0x00#16) 0))
    fun t => t.bank.sr

theorem test_lshiftImm : shiftRow (.lshiftImm .si 0xFB#8 .hi false) 0xB6A3#16 0x00#8 0xFFFFFFFF#32 false =
    some 0x05B51800#32 := by decide
theorem test_lshiftImm_or : shiftRow (.lshiftImm .si 8#8 .lo true) 0x00FF#16 0x00#8 0x12340000#32 false =
    some 0x1234FF00#32 := by decide
theorem test_ashiftImm : shiftRow (.ashiftImm .si 0xFB#8 .hi false) 0xB6A3#16 0x00#8 0x00000000#32 false =
    some 0xFDB51800#32 := by decide
theorem test_ashiftImm_off_scale : shiftRow (.ashiftImm .si 0xF0#8 .lo false) 0xB6A3#16 0x00#8 0x00000000#32 false =
    some 0xFFFFFFFF#32 := by decide
theorem test_lshiftSe : shiftRow (.lshiftSe .si .hi false) 0x1234#16 0xFC#8 0x00000000#32 false =
    some 0x01234000#32 := by decide
theorem test_ashiftSe : shiftRow (.ashiftSe .si .lo false) 0x8234#16 0x03#8 0x00000000#32 false =
    some 0xFFFC11A0#32 := by decide
theorem test_norm_carry : shiftRow (.norm .si .hi false) 0x7A32#16 0x05#8 0x00000000#32 true =
    some 0xFBD19000#32 := by decide
theorem test_norm_min : shiftRow (.norm .si .hi false) 0x0001#16 0x80#8 0x00000000#32 true =
    some 0x00000000#32 := by decide

/-- SE and SS after EXP of SI, from SE, AV and SS. -/
def expRow (i : Instr) (si : Word) (se : BitVec 8) (flags : Word) : Option (BitVec 8 × Bool) :=
  seen (exec i (start { Bank.zero with si := si, se := se } flags 0)) fun t => (t.bank.se, t.astat.ss)

theorem test_expHi : expRow (.expHi .si) 0xF6D4#16 0x55#8 0 = some (0xFD#8, true) := by decide
theorem test_expHi_zero : expRow (.expHi .si) 0x0000#16 0x55#8 0x80#16 = some (0xF1#8, false) := by decide
theorem test_expHix_overflow : expRow (.expHix .si) 0xFA32#16 0x55#8 0x84#16 = some (0x01#8, false) := by decide
theorem test_expHix : expRow (.expHix .si) 0xE35B#16 0x55#8 0 = some (0xFE#8, true) := by decide
theorem test_expLo : expRow (.expLo .si) 0xF6D4#16 0xF1#8 0x80#16 = some (0xED#8, true) := by decide
theorem test_expLo_kept : expRow (.expLo .si) 0xF6D4#16 0xF2#8 0x80#16 = some (0xF2#8, true) := by decide
theorem test_expadj : seen (exec (.expadj .si) (start { Bank.zero with si := 0xF5B1#16, sb := 0x10#5 } 0 0))
    (fun t => t.bank.sb) = some 0x1D#5 := by decide
theorem test_expadj_kept : seen (exec (.expadj .si) (start { Bank.zero with si := 0x0176#16, sb := 0x05#5 } 0 0))
    (fun t => t.bank.sb) = some 0x05#5 := by decide

/-! Section 6: transfers and modes. -/

theorem test_load_mr1 : seen (exec (.load .mr1 0x8000#16) (start (Bank.zero.setMr 0x123456789A#40) 0 0))
    (fun t => t.bank.mr) = some 0xFF8000789A#40 := by decide
theorem test_load_se : seen (exec (.load .se 0x0180#16) (start Bank.zero 0 0)) (fun t => t.bank.se) =
    some 0x80#8 := by decide
theorem test_move_sb : seen (exec (.move .se .sb) (start { Bank.zero with sb := 0x10#5 } 0 0)) (fun t => t.bank.se) =
    some 0xF0#8 := by decide
theorem test_move_mr2 : seen (exec (.move .mr1 .mr2) (start (Bank.zero.setMr 0x1280001111#40) 0 0))
    (fun t => t.bank.mr) = some 0x0000121111#40 := by decide
theorem test_astatw : seen (exec (.astatw 0x0024#16) (start Bank.zero 0xFF#16 0x4#16)) (fun t => t.astat) =
    some (Astat.mk false false true false false true false false) := by decide
theorem test_mode : seen (exec (.mode .mMode true) (start Bank.zero 0 0x62#16)) (fun t => t.mstat) =
    some 0x72#16 := by decide
theorem test_mode_bank : seen (exec (.mode .secReg true) (start { Bank.zero with ax0 := 0x1111#16 } 0 0))
    (fun t => (t.bank.ax0, t.prim.ax0)) = some (0x0000#16, 0x1111#16) := by decide
theorem test_bias : seen (exec (.bias true) (start Bank.zero 0 0)) (fun t => t.biased) = some true := by decide

/-- The first step after reset runs a word placed by `withFetchWord`: `SI = 0xB6A3;`. -/
theorem test_withFetchWord : seen (step (State.reset.withFetchWord 24 0x4B6A38)) (fun t => (t.bank.si, t.pc)) =
    some (0xB6A3#16, 1) := by decide
/-- Run from reset with nothing placed: the run has ended. -/
theorem test_reset_step : seen (step State.reset) (fun t => t.pc) = none := by decide

/-! ## Witnesses: for each statement with hypotheses, a state and operands that meet them -/

/-- A state about to run one operation. -/
def withProgram (l : List Slot) (n : Nat) : State := { State.reset with program := l, pc := n }

/-- The state after `MR = 0;` at index 0 of a program of one operation. -/
def afterClear : State := { withProgram [.op .mrclr] 0 with pc := 1 }

/-- A state of a member without BIASRND. -/
def plainMember : State := { State.reset with params := { Params.standard with hasBiasrnd := false } }

/-- R205: a program is refused before its first operation runs, wherever the entry stands that spells none. -/
theorem test_program_refused_operation :
    step (withProgram [.op .mrclr, .op (.divs .ay0 .ax0)] 0) = .refused .noSuchOperation := rfl
theorem test_program_refused_word :
    step (withProgram [.op .mrclr, .word 0#24, .op (.divs .ay0 .ax0)] 0) = .refused (.badWord .noPattern) := rfl
theorem test_program_refused_bias :
    step { plainMember with program := [.op .mrclr, .op (.bias true)] } = .refused .noSuchOperation := rfl

theorem witness_StepKeepsRunInvariant :
    (withProgram [.op .mrclr] 0).ok = true ∧ step (withProgram [.op .mrclr] 0) = .next afterClear :=
  ⟨by decide, rfl⟩
theorem witness_StepRunsTheDecodedOperation_op :
    programSpells Params.standard [.op .mrclr] = true ∧
      (withProgram [.op .mrclr] 0).program[0]? = some (.op .mrclr) := by decide
theorem witness_StepRunsTheDecodedOperation_word :
    programSpells Params.standard [.op .mrclr, .word 0x050000#24] = true ∧
      (withProgram [.op .mrclr, .word 0x050000#24] 1).program[1]? = some (.word 0x050000#24) ∧
      decode 0x050000#24 = .ok .satmr := by decide
theorem witness_StepStopsAtEndOrBadWord_end :
    programSpells Params.standard [.op .mrclr] = true ∧ (withProgram [.op .mrclr] 1).program[1]? = none := by decide
theorem witness_StepStopsAtEndOrBadWord_unspelled :
    programSpells Params.standard [.op .mrclr, .op (.divs .ay0 .ax0)] = false := by decide
theorem witness_StepStopsAtEndOrBadWord_operation :
    (withProgram [.op .mrclr, .op (.divs .ay0 .ax0), .word 0#24] 0).program =
        [.op .mrclr] ++ .op (.divs .ay0 .ax0) :: [.word 0#24] ∧
      programSpells Params.standard [.op .mrclr] = true ∧
      Instr.wf Params.standard (.divs .ay0 .ax0) = false := by decide
theorem witness_StepStopsAtEndOrBadWord_word :
    (withProgram [.word 0#24, .op (.divs .ay0 .ax0)] 0).program = [] ++ .word 0#24 :: [.op (.divs .ay0 .ax0)] ∧
      programSpells Params.standard [] = true ∧ decode 0#24 = .error .noPattern := by decide
theorem witness_StepAdvancesTheIndexOnly : step (withProgram [.op .mrclr] 0) = .next afterClear := rfl
theorem witness_SpelledProgramRunsToItsEnd_start :
    programSpells Params.standard [.op .mrclr, .word 0x050000#24] = true ∧
      (withProgram [.op .mrclr, .word 0x050000#24] 0).pc ≤ 2 := by decide
theorem witness_SpelledProgramRunsToItsEnd_end :
    programSpells Params.standard [.op .mrclr] = true ∧ (withProgram [.op .mrclr] 1).pc ≤ 1 := by decide
theorem witness_EveryOperationCompletes :
    Instr.wf State.reset.params (.divs .af .sr1) = true ∧ Instr.wf State.reset.params (.bias false) = true := by decide

theorem witness_NonOperationsAreRefused : plainMember.params.hasBiasrnd = false := rfl
theorem witness_FlagsChangeOnlyByTheirWriters :
    exec .satmr State.reset = .next State.reset ∧ (∀ v, Instr.satmr ≠ .astatw v) ∧ aluDst .satmr = none ∧
      (∀ d x, Instr.satmr ≠ .abs d x) ∧ (∀ y x, Instr.satmr ≠ .divs y x) ∧ (∀ x, Instr.satmr ≠ .divq x) ∧
      macDst .satmr = none ∧ (∀ x, Instr.satmr ≠ .expHi x) ∧ (∀ x, Instr.satmr ≠ .expHix x) := by
  refine ⟨rfl, ?_, rfl, ?_, ?_, ?_, rfl, ?_, ?_⟩ <;> intros <;> nofun
theorem witness_LatchedOverflowStays :
    (start Bank.zero 0x04#16 0x4#16).mstat.getLsbD 2 = true ∧ (start Bank.zero 0x04#16 0x4#16).astat.av = true ∧
      (∀ v, Instr.satmr ≠ .astatw v) ∧
      exec .satmr (start Bank.zero 0x04#16 0x4#16) = .next (start Bank.zero 0x04#16 0x4#16) :=
  ⟨by decide, by decide, by intro v; nofun, rfl⟩
theorem witness_ModeBitsChangeOnlyByTheirWriters :
    exec .satmr State.reset = .next State.reset ∧ (∀ m e, Instr.satmr ≠ .mode m e) ∧ (∀ b, Instr.satmr ≠ .bias b) ∧
      (1 ≠ 0 ∧ 1 ≠ 2 ∧ 1 ≠ 3 ∧ 1 ≠ 4) := by
  refine ⟨rfl, ?_, ?_, by decide⟩ <;> intros <;> nofun
theorem witness_InactiveBankIsKept :
    exec .satmr (start Bank.zero 0 0) = .next (start Bank.zero 0 0) ∧ (start Bank.zero 0 0).mstat.getLsbD 0 = false ∧
      exec .satmr (start Bank.zero 0 1) = .next (start Bank.zero 0 1) ∧ (start Bank.zero 0 1).mstat.getLsbD 0 = true :=
  ⟨rfl, by decide, rfl, by decide⟩
theorem witness_InactiveBankIsNotRead :
    (start Bank.zero 0 0).mstat.getLsbD 0 = false ∧ (start Bank.zero 0 1).mstat.getLsbD 0 = true := by decide
theorem witness_RegistersChangeOnlyByTheirWriters_mr :
    exec (.bias false) State.reset = .next State.reset ∧ (∀ m e, Instr.bias false ≠ .mode m e) ∧
      (∀ d v, Instr.bias false ≠ .load d v) ∧ (∀ d r, Instr.bias false ≠ .move d r) ∧
      macDst (.bias false) ≠ some .mr ∧ Instr.bias false ≠ .satmr := by
  refine ⟨rfl, ?_, ?_, ?_, by decide, by decide⟩ <;> intros <;> nofun
theorem witness_RegistersChangeOnlyByTheirWriters :
    exec .satmr State.reset = .next State.reset ∧ (∀ m e, Instr.satmr ≠ .mode m e) ∧
      aluDst .satmr ≠ some .af ∧ aluDst .satmr ≠ some .ar ∧ macDst .satmr ≠ some .mf ∧ shifts .satmr = false ∧
      (∀ y x, Instr.satmr ≠ .divs y x) ∧ (∀ x, Instr.satmr ≠ .divq x) ∧ (∀ d v, Instr.satmr ≠ .load d v) ∧
      (∀ d r, Instr.satmr ≠ .move d r) ∧ (∀ x, Instr.satmr ≠ .expHi x) ∧ (∀ x, Instr.satmr ≠ .expHix x) ∧
      (∀ x, Instr.satmr ≠ .expLo x) ∧ (∀ x, Instr.satmr ≠ .expadj x) := by
  refine ⟨rfl, ?_, by decide, by decide, by decide, rfl, ?_, ?_, ?_, ?_, ?_, ?_, ?_, ?_⟩ <;> intros <;> nofun
theorem witness_DecodingAnEncodedOperation :
    Instr.wf Params.standard (.load .sb 0xFFF0#16) = true ∧ Instr.encodable (.load .sb 0xFFF0#16) = true := by decide
theorem witness_EncodingADecodedWord : decode 0x050000#24 = .ok .satmr := by decide
theorem witness_EncodingLosesNoEffect :
    Instr.wf Params.standard (.astatw 0x8001#16) = true ∧ encode (.astatw 0x8001#16) = some 0x3C0010#24 ∧
      (∀ k ∈ Params.standard.astatLayout.positions, k.val < 14) := by decide
theorem witness_PlacedWordIsFetched :
    decode 0x050000#24 = .ok .satmr ∧ programSpells Params.standard [.op .mrclr, .op .satmr] = true ∧
      1 < (withProgram [.op .mrclr, .op .satmr] 0).program.length ∧
      1 ≠ (withProgram [.op .mrclr, .op .satmr] 0).pc := by decide
theorem witness_SaturationAndLatchModes : aluDst (.abs .ar .ax0) = some .ar ∧ aluDst (.pass0 .af) = some .af := by
  decide
theorem witness_SaturationClampsTheExactResult :
    (start { Bank.zero with ax0 := 0x8000#16 } 0 0x8#16).mstat.getLsbD 3 = true ∧
      ((Instr.negx .ar .ax0, (32768 : Int)) ∈ [(Instr.negx .ar .ax0,
        -((start { Bank.zero with ax0 := 0x8000#16 } 0 0x8#16).readAxop .ax0).toInt)]) := by decide
theorem witness_MultiprecisionAddAndSubtract :
    ((start Bank.zero 0 0).mstat.getLsbD 3 = false ∨ Adst.ar = .af) ∧
      ((start Bank.zero 0 8).mstat.getLsbD 3 = false ∨ Adst.af = .af) := by decide
theorem witness_DivideSign : Ayop.ay1 ≠ .ay0 ∧ Ayop.af ≠ .ay0 := by decide

/-- A state about to divide: dividend AF:AY0 (and AY1:AY0), divisor AX0, AQ clear. -/
def dividing (hi lo d : Word) : State := start { Bank.zero with af := hi, ay1 := hi, ay0 := lo, ax0 := d } 0 0

/-- The hypotheses of the unsigned division. -/
def unsignedFits (s : State) : Bool :=
  !s.astat.aq && decide (0 < (s.readAxop .ax0).toNat ∧ (s.readAxop .ax0).toNat < 2 ^ 15 ∧
    (s.bank.af ++ s.bank.ay0).toNat < 2 ^ 16 * (2 * (s.readAxop .ax0).toNat))

theorem witness_UnsignedDivisionQuotient_least : unsignedFits (dividing 0x0001#16 0xFFFF#16 0x0001#16) = true := by
  decide
theorem witness_UnsignedDivisionQuotient_greatest :
    unsignedFits (dividing 0xFFFD#16 0xFFFF#16 0x7FFF#16) = true := by decide

/-- The hypotheses of the signed division. -/
def signedFits (s : State) (q : Int) : Bool :=
  let n := (s.readAyop .ay1 ++ s.bank.ay0).toInt
  let d := 2 * (s.readAxop .ax0).toInt
  decide (-2 ^ 15 ≤ q ∧ q < 2 ^ 15 ∧
    ((0 < d ∧ q * d ≤ n ∧ n < (q + 1) * d) ∨ (d < 0 ∧ (q + 1) * d ≤ n ∧ n < q * d)))

theorem witness_SignedDivisionQuotient_positive : signedFits (dividing 0xC000#16 0x0000#16 0x4000#16) (-32768) = true := by
  decide
theorem witness_SignedDivisionQuotient_negative : signedFits (dividing 0xE000#16 0x0000#16 0xC000#16) 0x3FFF = true := by
  decide
theorem witness_SaturationAfterAccumulationClamps_least :
    macDst .mrclr = some .mr ∧ exec .mrclr State.reset = .next State.reset := ⟨rfl, rfl⟩
/-- The product (-1) * (-1) in 1.15 leaves 0x0080000000 in MR, one above the range, and sets MV: SAT MR clamps. -/
theorem witness_SaturationAfterAccumulationClamps :
    macDst (.mul .mr .mx0 .my0 .ss) = some .mr ∧
      seen (exec (.mul .mr .mx0 .my0 .ss) (start { Bank.zero with mx0 := 0x8000#16, my0 := 0x8000#16 } 0 0))
        (fun t => (t.bank.mr, t.astat.mv)) = some (0x0080000000#40, true) := by decide
theorem witness_ShiftsScaleByPowersOfTwo :
    (16#8).toInt ≤ 16 ∧ (0x80#8).toInt ≤ 16 ∧ (start { Bank.zero with se := 16#8 } 0 0).bank.se.toInt ≤ 16 ∧
      (start { Bank.zero with se := 0x80#8 } 0 0).bank.se.toInt ≤ 16 := by decide
theorem witness_DenormalisationShifts32Bits : notSr .si = true ∧ notSr .mr2 = true := by decide
theorem witness_DoublePrecisionNormalisation :
    notSr .mr0 = true ∧ (start { Bank.zero with mr0 := 1#16 } 0 0).readSxop .mr0 ≠ 0 := by decide

/-- A state whose sum AX0 + AY0 is 32768: it overflows, and the addition sets AV. -/
def overflowing : State := start { Bank.zero with ax0 := 0x7FFF#16, ay0 := 0x0001#16 } 0 0

theorem witness_OverflowedResultNormalises :
    overflowing.mstat.getLsbD 2 = false ∧ overflowing.mstat.getLsbD 3 = false ∧
      ((Instr.add .ar .ax0 .ay0, (32768 : Int)) ∈ [(Instr.add .ar .ax0 .ay0,
        (overflowing.readAxop .ax0).toInt + (overflowing.readAyop .ay0).toInt)]) := by decide
theorem witness_OverflowedResultNormalises_overflow :
    seen (exec (.add .ar .ax0 .ay0) overflowing) (fun t => (t.bank.ar, t.astat.av)) = some (0x8000#16, true) := by
  decide
theorem witness_StatusWrite : State.reset.params.astatLayout = AstatLayout.family := rfl
theorem witness_BiasWrite : State.reset.params.hasBiasrnd = true := rfl

end Sys2Proof.Tests
end

/-! # Proofs: the shifter

Every shift ends in `State.srEnd` on the array's output, so R150, R152 and R153 are shown once, of any operation that
ends so (`shiftResult_of_exec_eq_srEnd`); each form then only says which code and extension bit it hands to the array. -/

section

open Sys2Proof Sys2Proof.Machine

namespace Sys2Proof.Claims

/-! ## The array and the write of SR -/

/-- The two reference points as one sum (R152). -/
theorem arrayPosition_eq_add (c : Int) (h : HiLo) : arrayPosition c h = c + if h = .hi then 16 else 0 := by
  cases h with
  | hi => rfl
  | lo => exact (Int.add_zero c).symm

/-- The array's bit with the input's top position written as a strict bound, as `ShiftResult` does (R150). -/
theorem arrayBit_eq_of_lt_sixteen (inp : Word) (p : Int) (ext : Bool) (k : Nat) :
    arrayBit inp p ext k =
      (let j : Int := k - p
       if j < 0 then false else if j < 16 then inp.getLsbD j.toNat else ext) := by
  have hbound : (k : Int) - p ≤ 15 ↔ (k : Int) - p < 16 := by omega
  simp only [arrayBit, hbound]

/-- Every bit of SR after the shared end of the shifts: the array's, ORed with the old one under [SR OR] (R153). -/
theorem getLsbD_srEnd_sr (s : State) (srOr : Bool) (a : BitVec 32) (k : Nat) :
    (s.srEnd srOr a).bank.sr.getLsbD k = ((srOr && s.bank.sr.getLsbD k) || a.getLsbD k) := by
  rw [State.srEnd_bank, Bank.setSr_sr]
  cases srOr with
  | false => simp
  | true => simp

/-- The shared end of the shifts writes the two halves of SR and no other register. -/
theorem srEnd_bank_keeps_others (s : State) (srOr : Bool) (a : BitVec 32) :
    (s.srEnd srOr a).bank =
      { s.bank with sr1 := (s.srEnd srOr a).bank.sr1, sr0 := (s.srEnd srOr a).bank.sr0 } := by
  rw [State.srEnd_bank]
  rfl

/-- The shared end of the shifts changes nothing outside the active bank. -/
theorem keepsRest_srEnd (s : State) (srOr : Bool) (a : BitVec 32) : KeepsRest s (s.srEnd srOr a) :=
  ⟨State.srEnd_inactiveBank s srOr a, rfl, rfl, rfl, rfl, rfl⟩

/-- An operation that writes the array's output into SR is a shift as R150, R152 and R153 describe it. -/
theorem shiftResult_of_exec_eq_srEnd {s : State} {i : Instr} {inp : Word} {c : Int} {h : HiLo} {ext srOr : Bool}
    (hexec : exec i s = .next (s.srEnd srOr (shiftArray inp c h ext))) : ShiftResult s i inp c h ext srOr := by
  refine ⟨_, hexec, fun k hk => ?_, srEnd_bank_keeps_others .., State.srEnd_astat .., keepsRest_srEnd ..⟩
  rw [getLsbD_srEnd_sr, getLsbD_shiftArray, decide_eq_true hk, Bool.true_and, arrayBit_eq_of_lt_sixteen,
    arrayPosition_eq_add]

/-! ## The four forms -/

/-- The array's input, code and extension bit in an immediate LSHIFT (R158). -/
theorem exec_lshiftImm_eq_srEnd (x : Sxop) (e : BitVec 8) (h : HiLo) (o : Bool) (s : State) :
    exec (.lshiftImm x e h o) s = .next (s.srEnd o (shiftArray (s.readSxop x) e.toInt h false)) := rfl

/-- The array's input, code and extension bit in an LSHIFT by SE (R160). -/
theorem exec_lshiftSe_eq_srEnd (x : Sxop) (h : HiLo) (o : Bool) (s : State) :
    exec (.lshiftSe x h o) s = .next (s.srEnd o (shiftArray (s.readSxop x) s.bank.se.toInt h false)) := rfl

/-- The array's input, code and extension bit in an immediate ASHIFT: the extension bit is bit 15 of the input (R159). -/
theorem exec_ashiftImm_eq_srEnd (x : Sxop) (e : BitVec 8) (h : HiLo) (o : Bool) (s : State) :
    exec (.ashiftImm x e h o) s =
      .next (s.srEnd o (shiftArray (s.readSxop x) e.toInt h ((s.readSxop x).getLsbD 15))) := by
  rw [← BitVec.msb_eq_getLsbD_last (s.readSxop x)]
  rfl

/-- The array's input, code and extension bit in an ASHIFT by SE: the extension bit is bit 15 of the input (R161). -/
theorem exec_ashiftSe_eq_srEnd (x : Sxop) (h : HiLo) (o : Bool) (s : State) :
    exec (.ashiftSe x h o) s =
      .next (s.srEnd o (shiftArray (s.readSxop x) s.bank.se.toInt h ((s.readSxop x).getLsbD 15))) := by
  rw [← BitVec.msb_eq_getLsbD_last (s.readSxop x)]
  rfl

/-- Settles O40: each form ends in the shared write of SR, which is a shift bit by bit. -/
theorem shiftForms : Obligations.ShiftForms := by
  intro x e h o s
  exact ⟨shiftResult_of_exec_eq_srEnd (exec_lshiftImm_eq_srEnd x e h o s),
    shiftResult_of_exec_eq_srEnd (exec_ashiftImm_eq_srEnd x e h o s),
    shiftResult_of_exec_eq_srEnd (exec_lshiftSe_eq_srEnd x h o s),
    shiftResult_of_exec_eq_srEnd (exec_ashiftSe_eq_srEnd x h o s)⟩

end Sys2Proof.Claims

end

/-! # Proofs: register moves

LOAD ends in one write of the active bank, `Bank.writeDreg`. Its effect (R26, R27) is shown once, of any operation that
ends so, whatever its bus value is (`loadEffect_of_exec_eq_writeDreg`): a constant (R180) or a register's (R181). -/

section

open Sys2Proof Sys2Proof.Machine

namespace Sys2Proof.Claims

/-- A loaded register reads back as what it keeps of the bus value: MR2 and SE 8 bits, SB 5 bits, the others all (R26). -/
theorem readDreg_writeDreg_self (b : Bank) (d : Dreg) (v : Word) : (b.writeDreg d v).readDreg d = busKept d v := by
  cases d with
  | mr2 | se | sb => rfl
  | ax0 | ax1 | ay0 | ay1 | ar | mx0 | mx1 | my0 | my1 | mr0 | mr1 | si | sr0 | sr1 => rfl

/-- A load of MR1 fills MR2 with bit 15 of the bus value (R27). -/
theorem writeDreg_mr1_mr2 (b : Bank) (v : Word) :
    (b.writeDreg .mr1 v).mr2 = if v.getLsbD 15 then 0xFF#8 else 0x00#8 := by
  rw [← BitVec.msb_eq_getLsbD_last v]
  rfl

/-- Replacing the active bank changes nothing outside it. -/
theorem keepsRest_setBank (s : State) (b : Bank) : KeepsRest s (s.setBank b) :=
  ⟨State.setBank_inactiveBank s b, rfl, rfl, rfl, rfl, rfl⟩

/-- An operation that writes one bus value into one register of the active bank is a load as R26 and R27 describe it. -/
theorem loadEffect_of_exec_eq_writeDreg {s : State} {i : Instr} {d : Dreg} {v : Word}
    (hexec : exec i s = .next (s.setBank (s.bank.writeDreg d v))) : LoadEffect s i d v := by
  refine ⟨_, hexec, ?_⟩
  rw [State.setBank_bank]
  refine ⟨readDreg_writeDreg_self .., ?fillsMr2, fun d' => Bank.readDreg_writeDreg_of_ne s.bank d d' v,
    Bank.writeDreg_af .., Bank.writeDreg_mf .., State.setBank_astat .., keepsRest_setBank ..⟩
  case fillsMr2 =>
    rintro rfl
    exact writeDreg_mr1_mr2 s.bank v

/-- The register and the bus value of a LOAD: the constant itself (R180). -/
theorem exec_load_eq_writeDreg (d : Dreg) (v : Word) (s : State) :
    exec (.load d v) s = .next (s.setBank (s.bank.writeDreg d v)) := rfl

/-- Settles O50: LOAD ends in the write of its constant into its register, which has the effect of a load. -/
theorem loadWritesOneRegister : Obligations.LoadWritesOneRegister :=
  fun d v s => loadEffect_of_exec_eq_writeDreg (exec_load_eq_writeDreg d v s)

end Sys2Proof.Claims

end

/-! # Proofs: what an operation can do

`Ends` lists the ways an operation ends, one constructor per class of operation. Every well-formed operation completes in
one of these ways and every other term is refused, which is shown once (`exec_ends`, `exec_of_not_wf`); the rules about
the whole machine are then case analyses of `Ends`. -/

section

open Sys2Proof Sys2Proof.Machine

namespace Sys2Proof.Claims

/-- The states in which an operation started in `s` can end, by its class. -/
inductive Ends (s : State) : Instr → State → Prop
  | alu {i : Instr} {d : Adst} (o : AluOut) (hdst : aluDst i = some d) (hne : ∀ d x, i ≠ .abs d x) :
      Ends s i (s.aluEnd d o)
  | abs (d : Adst) (x : Axop) (o : AluOut) (sign : Bool) :
      Ends s (.abs d x) ((s.aluEnd d o).setAstat { (s.aluEnd d o).astat with as := sign })
  | divs (y : Ayop) (x : Axop) (r : Word) (q0 aq : Bool) : Ends s (.divs y x) (s.divShift r q0 aq)
  | divq (x : Axop) (r : Word) (q0 aq : Bool) : Ends s (.divq x) (s.divShift r q0 aq)
  | mac {i : Instr} {d : Mdst} (res : BitVec 40) (hdst : macDst i = some d) : Ends s i (s.macEnd d res)
  | satmrKept : Ends s .satmr s
  | satmr (v : BitVec 40) : Ends s .satmr (s.setBank (s.bank.setMr v))
  | shift {i : Instr} (srOr : Bool) (a : BitVec 32) (hshift : shifts i = true) : Ends s i (s.srEnd srOr a)
  | expHi (x : Sxop) (e : BitVec 8) (ss : Bool) : Ends s (.expHi x) (s.expEnd e ss)
  | expHix (x : Sxop) (e : BitVec 8) (ss : Bool) : Ends s (.expHix x) (s.expEnd e ss)
  | expLoKept (x : Sxop) : Ends s (.expLo x) s
  | expLo (x : Sxop) (e : BitVec 8) : Ends s (.expLo x) (s.setBank { s.bank with se := e })
  | expadjKept (x : Sxop) : Ends s (.expadj x) s
  | expadj (x : Sxop) (e : BitVec 5) : Ends s (.expadj x) (s.setBank { s.bank with sb := e })
  | load (d : Dreg) (v : Word) : Ends s (.load d v) (s.setBank (s.bank.writeDreg d v))
  | move (d r : Dreg) (v : Word) : Ends s (.move d r) (s.setBank (s.bank.writeDreg d v))
  | astatw (v : Word) (f : Astat) : Ends s (.astatw v) (s.setAstat f)
  | mode (m : Mode) (ena : Bool) : Ends s (.mode m ena) { s with mstat := mstatWith s.mstat (modeBit m) ena }
  | bias (b : Bool) (hmember : s.params.hasBiasrnd = true) : Ends s (.bias b) { s with biasrnd := b }

/-- Every well-formed operation completes, in one of the ways of its class. -/
theorem exec_ends (i : Instr) (s : State) (hwf : i.wf s.params = true) : ∃ t, exec i s = .next t ∧ Ends s i t := by
  cases i
  case add | addc | sub | subb | rsub | rsubb | negx | negy | inc | dec | passx | passy | pass0 | logicAnd | logicOr
      | logicXor | notx | noty =>
    exact ⟨_, rfl, .alu _ rfl (by nofun)⟩
  case abs d x => exact ⟨_, rfl, .abs d x _ _⟩
  case divs y x =>
    cases y with
    | ay0 => cases hwf
    | ay1 | af => exact ⟨_, rfl, .divs ..⟩
  case divq x => exact ⟨_, rfl, .divq ..⟩
  case mul | macc | msub | mrclr => exact ⟨_, rfl, .mac _ rfl⟩
  case satmr =>
    refine ⟨_, rfl, ?_⟩
    split
    · exact .satmr _
    · exact .satmrKept
  case lshiftImm | ashiftImm | lshiftSe | ashiftSe | norm => exact ⟨_, rfl, .shift _ _ rfl⟩
  case expHi x => exact ⟨_, rfl, .expHi ..⟩
  case expHix x =>
    refine ⟨_, rfl, ?_⟩
    split
    · exact .expHix ..
    · exact .expHix ..
  case expLo x =>
    refine ⟨_, rfl, ?_⟩
    split
    · exact .expLo ..
    · exact .expLoKept x
  case expadj x =>
    refine ⟨_, rfl, ?_⟩
    split
    · exact .expadj ..
    · exact .expadjKept x
  case load d v => exact ⟨_, rfl, .load d v⟩
  case move d r => exact ⟨_, rfl, .move ..⟩
  case astatw v => exact ⟨_, rfl, .astatw ..⟩
  case mode m ena => exact ⟨_, rfl, .mode m ena⟩
  case bias b => exact ⟨_, if_pos hwf, .bias b hwf⟩

/-- DIVS with AY0 as the upper word is refused (R110, R56). -/
theorem exec_divs_ay0 (x : Axop) (s : State) : exec (.divs .ay0 x) s = .refused .noSuchOperation := rfl

/-- BIAS is refused on a member without BIASRND (R186). -/
theorem exec_bias_of_absent (b : Bool) (s : State) (habsent : s.params.hasBiasrnd = false) :
    exec (.bias b) s = .refused .noSuchOperation :=
  if_neg (by simp [habsent])

/-- A term that spells no operation is refused. -/
theorem exec_of_not_wf (i : Instr) (s : State) (hwf : i.wf s.params = false) :
    exec i s = .refused .noSuchOperation := by
  cases i
  case divs y x =>
    cases y with
    | ay0 => exact exec_divs_ay0 x s
    | ay1 | af => cases hwf
  case bias b => exact exec_bias_of_absent b s hwf
  all_goals cases hwf

/-- An operation that answers a next state is well formed and ends in one of the ways of its class. -/
theorem ends_of_exec_next {i : Instr} {s t : State} (h : exec i s = .next t) : Ends s i t := by
  cases hwf : i.wf s.params with
  | false => rw [exec_of_not_wf i s hwf] at h; cases h
  | true =>
    obtain ⟨u, hu, hends⟩ := exec_ends i s hwf
    rw [hu] at h
    cases h
    exact hends

/-! ## Completion and refusal -/

/-- Settles O8: a well-formed operation ends, any other term is refused, so nothing faults. -/
theorem everyOperationCompletes : Obligations.EveryOperationCompletes := by
  intro i s
  cases hwf : i.wf s.params with
  | false => exact ⟨nofun, fun r => by rw [exec_of_not_wf i s hwf]; nofun⟩
  | true =>
    obtain ⟨t, ht, -⟩ := exec_ends i s hwf
    exact ⟨fun _ => ⟨t, ht⟩, fun r => by rw [ht]; nofun⟩

/-- Settles O9, by the refusal of each of the two forms. -/
theorem nonOperationsAreRefused : Obligations.NonOperationsAreRefused :=
  ⟨exec_divs_ay0, exec_bias_of_absent⟩

/-! ## Flags -/

/-- Settles O10: the class of an operation says which flags its end writes. -/
theorem flagsChangeOnlyByTheirWriters : Obligations.FlagsChangeOnlyByTheirWriters := by
  intro i s t h hastatw
  cases ends_of_exec_next h with
  | alu o hdst hne => exact ⟨by simp [hdst], fun _ => rfl, fun _ _ => rfl, fun _ => rfl, fun _ _ => rfl⟩
  | abs d x => exact ⟨nofun, fun hne => absurd rfl (hne d x), fun _ _ => rfl, fun _ => rfl, fun _ _ => rfl⟩
  | divs y x =>
    exact ⟨fun _ => ⟨rfl, rfl, rfl, rfl⟩, fun _ => rfl, fun hne _ => absurd rfl (hne y x), fun _ => rfl, fun _ _ => rfl⟩
  | divq x =>
    exact ⟨fun _ => ⟨rfl, rfl, rfl, rfl⟩, fun _ => rfl, fun _ hne => absurd rfl (hne x), fun _ => rfl, fun _ _ => rfl⟩
  | mac res hdst =>
    exact ⟨fun _ => ⟨rfl, rfl, rfl, rfl⟩, fun _ => rfl, fun _ _ => rfl, by simp [hdst], fun _ _ => rfl⟩
  | expHi x =>
    exact ⟨fun _ => ⟨rfl, rfl, rfl, rfl⟩, fun _ => rfl, fun _ _ => rfl, fun _ => rfl, fun hne _ => absurd rfl (hne x)⟩
  | expHix x =>
    exact ⟨fun _ => ⟨rfl, rfl, rfl, rfl⟩, fun _ => rfl, fun _ _ => rfl, fun _ => rfl, fun _ hne => absurd rfl (hne x)⟩
  | astatw v => exact absurd rfl (hastatw v)
  | satmrKept | satmr | shift | expLoKept | expLo | expadjKept | expadj | load | move | mode | bias =>
    exact ⟨fun _ => ⟨rfl, rfl, rfl, rfl⟩, fun _ => rfl, fun _ _ => rfl, fun _ => rfl, fun _ _ => rfl⟩

/-- In latch mode AV is the old one or the overflow of this function (R75). -/
theorem aluFlags_av_of_latch (o : AluOut) (f : Astat) (hset : f.av = true) : (aluFlags true o f).av = true := by
  simp [aluFlags, hset]

/-- Settles O11: an ALU function ORs its overflow into AV, and no other class but ASTATW writes AV. -/
theorem latchedOverflowStays : Obligations.LatchedOverflowStays := by
  intro i s t hlatch hset hastatw h
  have hmode : s.avLatch = true := hlatch
  cases ends_of_exec_next h with
  | alu o | abs _ _ o => simpa [hmode] using aluFlags_av_of_latch o s.astat hset
  | astatw v => exact absurd rfl (hastatw v)
  | divs | divq | mac | satmrKept | satmr | shift | expHi | expHix | expLoKept | expLo | expadjKept | expadj | load
  | move | mode | bias => exact hset

/-! ## Mode bits -/

/-- The four bits MODE can name. -/
theorem modeBit_lt (m : Mode) : modeBit m < 16 := by
  cases m <;> decide

/-- A bit no mode names is kept by MODE. -/
theorem getLsbD_mstatWith_modeBit_of_ne (v : BitVec 16) (m : Mode) (ena : Bool) {k : Nat} (hk : k ≠ modeBit m) :
    (mstatWith v (modeBit m) ena).getLsbD k = v.getLsbD k := by
  rw [getLsbD_mstatWith _ _ _ _ (modeBit_lt m), if_neg hk]

/-- Settles O12: only the end of MODE writes MSTAT, in one of its four bits, and only that of BIAS writes BIASRND. -/
theorem modeBitsChangeOnlyByTheirWriters : Obligations.ModeBitsChangeOnlyByTheirWriters := by
  intro i s t h
  cases ends_of_exec_next h with
  | mode m ena =>
    refine ⟨fun hne => absurd rfl (hne m ena), fun _ => rfl, fun k h0 h2 h3 h4 => ?_⟩
    exact getLsbD_mstatWith_modeBit_of_ne _ _ _ (by cases m <;> assumption)
  | bias b => exact ⟨fun _ => rfl, fun hne => absurd rfl (hne b), fun _ _ _ _ _ => rfl⟩
  | alu | abs | divs | divq | mac | satmrKept | satmr | shift | expHi | expHix | expLoKept | expLo | expadjKept
  | expadj | load | move | astatw => exact ⟨fun _ => rfl, fun _ => rfl, fun _ _ _ _ _ => rfl⟩

/-! ## The two banks -/

/-- Replacing the active bank keeps the contents of the other one (R18). -/
theorem setBank_keeps_inactive (s : State) (b : Bank) :
    (s.mstat.getLsbD 0 = false → (s.setBank b).sec = s.sec) ∧ (s.mstat.getLsbD 0 = true → (s.setBank b).prim = s.prim) := by
  constructor
  · intro h
    exact if_neg (by rw [State.secReg, h]; exact Bool.false_ne_true)
  · intro h
    exact if_pos h

/-- Settles O13: every operation that writes a register does so by replacing the active bank. -/
theorem inactiveBankIsKept : Obligations.InactiveBankIsKept := by
  intro i s t h
  cases ends_of_exec_next h with
  | alu | abs | divs | divq | mac | satmr | shift | expHi | expHix | expLo | expadj | load | move =>
    exact setBank_keeps_inactive s _
  | satmrKept | expLoKept | expadjKept | astatw | mode | bias => exact ⟨fun _ => rfl, fun _ => rfl⟩

end Sys2Proof.Claims

end

/-! # Proofs: the registers and the other bank

Who writes which register of the active bank (R11, R14, R17, R24), and that the bank MSTAT[0] does not select is not
read (R18). -/

section

open Sys2Proof Sys2Proof.Machine

namespace Sys2Proof.Claims

/-! ## Registers -/

/-- Two banks agree on every register that no operation but a bus load writes. -/
def SameInputs (b c : Bank) : Prop :=
  c.ax0 = b.ax0 ∧ c.ax1 = b.ax1 ∧ c.ay1 = b.ay1 ∧ c.mx0 = b.mx0 ∧ c.mx1 = b.mx1 ∧ c.my0 = b.my0 ∧
    c.my1 = b.my1 ∧ c.si = b.si

/-- The registers each operation leaves alone, as a relation of the banks before and after it (R11, R14, R17, R24). -/
def KeepsOthers (i : Instr) (b c : Bank) : Prop :=
  (aluDst i ≠ some .af → (∀ y x, i ≠ .divs y x) → (∀ x, i ≠ .divq x) → c.af = b.af) ∧
  (macDst i ≠ some .mf → c.mf = b.mf) ∧
  ((∀ d v, i ≠ .load d v) → (∀ d r, i ≠ .move d r) →
    (aluDst i ≠ some .ar → c.ar = b.ar) ∧
    ((∀ y x, i ≠ .divs y x) → (∀ x, i ≠ .divq x) → c.ay0 = b.ay0) ∧
    (macDst i ≠ some .mr → i ≠ .satmr → c.mr0 = b.mr0 ∧ c.mr1 = b.mr1 ∧ c.mr2 = b.mr2) ∧
    (shifts i = false → c.sr0 = b.sr0 ∧ c.sr1 = b.sr1) ∧
    ((∀ x, i ≠ .expHi x) → (∀ x, i ≠ .expHix x) → (∀ x, i ≠ .expLo x) → c.se = b.se) ∧
    ((∀ x, i ≠ .expadj x) → c.sb = b.sb) ∧
    SameInputs b c)

/-- An unchanged bank keeps every register. -/
theorem keepsOthers_self (i : Instr) (b : Bank) : KeepsOthers i b b := by
  simp [KeepsOthers, SameInputs]

/-- An ALU function writes its destination. -/
theorem keepsOthers_writeAdst {i : Instr} {d : Adst} (hdst : aluDst i = some d) (b : Bank) (sat : Bool) (o : AluOut) :
    KeepsOthers i b (b.writeAdst sat d o) := by
  cases d <;> simp [KeepsOthers, SameInputs, Bank.writeAdst, hdst]

/-- A divide primitive writes AF and AY0. -/
theorem keepsOthers_divide {i : Instr} (hdiv : (∃ y x, i = .divs y x) ∨ ∃ x, i = .divq x) (b : Bank) (hi lo : Word) :
    KeepsOthers i b { b with af := hi, ay0 := lo } := by
  obtain ⟨y, x, rfl⟩ | ⟨x, rfl⟩ := hdiv <;> simp [KeepsOthers, SameInputs]

/-- A MAC operation writes its destination. -/
theorem keepsOthers_writeMdst {i : Instr} {d : Mdst} (hdst : macDst i = some d) (b : Bank) (res : BitVec 40) :
    KeepsOthers i b (b.writeMdst d res) := by
  cases d <;> simp [KeepsOthers, SameInputs, Bank.writeMdst, hdst]

/-- A bus load writes no feedback register. -/
theorem keepsOthers_writeDreg {i : Instr} (hload : (∃ d v, i = .load d v) ∨ ∃ d r, i = .move d r) (b : Bank) (d : Dreg)
    (v : Word) : KeepsOthers i b (b.writeDreg d v) := by
  obtain ⟨d', v', rfl⟩ | ⟨d', r, rfl⟩ := hload <;> simp [KeepsOthers]

/-- An operation that ends without selecting the other bank leaves each register to its writers. -/
theorem keepsOthers_of_ends {i : Instr} {s t : State} (h : Ends s i t) (hmode : ∀ m e, i ≠ .mode m e) :
    KeepsOthers i s.bank t.bank := by
  cases h with
  | alu o hdst => simpa using keepsOthers_writeAdst hdst s.bank s.arSat o
  | abs d x o => simpa using keepsOthers_writeAdst (i := .abs d x) rfl s.bank s.arSat o
  | divs y x => simpa using keepsOthers_divide (.inl ⟨y, x, rfl⟩) s.bank _ _
  | divq x => simpa using keepsOthers_divide (.inr ⟨x, rfl⟩) s.bank _ _
  | mac res hdst => simpa using keepsOthers_writeMdst hdst s.bank res
  | satmr => simp [KeepsOthers, SameInputs]
  | shift srOr a hshift => simp [KeepsOthers, SameInputs, hshift]
  | expHi | expHix | expLo | expadj => simp [KeepsOthers, SameInputs]
  | load d v => simpa using keepsOthers_writeDreg (.inl ⟨d, v, rfl⟩) s.bank d v
  | move d r v => simpa using keepsOthers_writeDreg (.inr ⟨d, r, rfl⟩) s.bank d v
  | mode m ena => exact absurd rfl (hmode m ena)
  | satmrKept | expLoKept | expadjKept | astatw | bias => exact keepsOthers_self _ s.bank

/-- Settles O15: each class of operation ends in the write of its own registers. -/
theorem registersChangeOnlyByTheirWriters : Obligations.RegistersChangeOnlyByTheirWriters :=
  fun _ _ _ h hmode => keepsOthers_of_ends (ends_of_exec_next h) hmode

/-! ## Operands

Two states with the same active bank give every operand class the same values (R25). -/

/-- The active bank depends on the two banks and on MSTAT[0] (R18). -/
theorem bank_congr {s t : State} (hprim : t.prim = s.prim) (hsec : t.sec = s.sec) (hmode : t.secReg = s.secReg) :
    t.bank = s.bank := by
  rw [State.bank, State.bank, hmode, hprim, hsec]

section

variable {s t : State} (hbank : t.bank = s.bank)
include hbank

theorem readAxop_congr (x : Axop) : t.readAxop x = s.readAxop x := by
  cases x <;> simp only [State.readAxop, hbank]

theorem readAyop_congr (y : Ayop) : t.readAyop y = s.readAyop y := by
  cases y <;> simp only [State.readAyop, hbank]

theorem readMxop_congr (x : Mxop) : t.readMxop x = s.readMxop x := by
  cases x <;> simp only [State.readMxop, hbank]

theorem readMyop_congr (y : Myop) : t.readMyop y = s.readMyop y := by
  cases y <;> simp only [State.readMyop, hbank]

theorem readSxop_congr (x : Sxop) : t.readSxop x = s.readSxop x := by
  cases x <;> simp only [State.readSxop, hbank]

end

/-! ## The bank that is not selected -/

/-- The state with other contents in one of its banks, the secondary one for `true`. -/
def withBank (second : Bool) (b : Bank) (s : State) : State :=
  if second then { s with sec := b } else { s with prim := b }

section

variable (k : Bool) (b : Bank) (s : State)

@[simp] theorem withBank_astat : (withBank k b s).astat = s.astat := by cases k <;> rfl
@[simp] theorem withBank_mstat : (withBank k b s).mstat = s.mstat := by cases k <;> rfl
@[simp] theorem withBank_params : (withBank k b s).params = s.params := by cases k <;> rfl
@[simp] theorem withBank_biased : (withBank k b s).biased = s.biased := by cases k <;> rfl
@[simp] theorem withBank_secReg : (withBank k b s).secReg = s.secReg := by cases k <;> rfl
@[simp] theorem withBank_avLatch : (withBank k b s).avLatch = s.avLatch := by cases k <;> rfl
@[simp] theorem withBank_arSat : (withBank k b s).arSat = s.arSat := by cases k <;> rfl
@[simp] theorem withBank_intMode : (withBank k b s).intMode = s.intMode := by cases k <;> rfl

theorem setAstat_withBank (f : Astat) : (withBank k b s).setAstat f = withBank k b (s.setAstat f) := by
  cases k <;> rfl

variable {k s}
variable (hother : s.secReg = !k)
include hother

/-- The active bank is the other one. -/
theorem bank_withBank : (withBank k b s).bank = s.bank := by
  cases k <;> simp [State.bank, withBank_secReg, hother] <;> rfl

/-- Replacing the active bank and the other one commute. -/
theorem setBank_withBank (c : Bank) : (withBank k b s).setBank c = withBank k b (s.setBank c) := by
  cases k <;> simp [State.setBank, withBank_secReg, hother] <;> simp [withBank]

theorem aluEnd_withBank (d : Adst) (o : AluOut) : (withBank k b s).aluEnd d o = withBank k b (s.aluEnd d o) := by
  simp [State.aluEnd, bank_withBank b hother, setBank_withBank b hother, setAstat_withBank]

theorem divShift_withBank (r : Word) (q0 aq : Bool) :
    (withBank k b s).divShift r q0 aq = withBank k b (s.divShift r q0 aq) := by
  simp [State.divShift, bank_withBank b hother, setBank_withBank b hother, setAstat_withBank]

theorem macProduct_withBank (x : Mxop) (y : Myop) (f : Fmt) : (withBank k b s).macProduct x y f = s.macProduct x y f := by
  simp [State.macProduct, readMxop_congr (bank_withBank b hother), readMyop_congr (bank_withBank b hother)]

omit hother in
theorem macRound_withBank (f : Fmt) (v : BitVec 40) : (withBank k b s).macRound f v = s.macRound f v := by
  cases f <;> simp [State.macRound]

theorem macEnd_withBank (d : Mdst) (res : BitVec 40) : (withBank k b s).macEnd d res = withBank k b (s.macEnd d res) := by
  simp [State.macEnd, bank_withBank b hother, setBank_withBank b hother, setAstat_withBank]

theorem srEnd_withBank (srOr : Bool) (a : BitVec 32) : (withBank k b s).srEnd srOr a = withBank k b (s.srEnd srOr a) := by
  simp [State.srEnd, bank_withBank b hother, setBank_withBank b hother]

theorem expEnd_withBank (e : BitVec 8) (ss : Bool) : (withBank k b s).expEnd e ss = withBank k b (s.expEnd e ss) := by
  simp [State.expEnd, bank_withBank b hother, setBank_withBank b hother, setAstat_withBank]

/-- Every operation reads and writes the active bank only, so it does the same beside other contents of the other. -/
theorem exec_withBank (i : Instr) : exec i (withBank k b s) = mapNext (withBank k b) (exec i s) := by
  cases i
  case add | addc | sub | subb | rsub | rsubb | negx | negy | inc | dec | passx | passy | pass0 | logicAnd | logicOr
      | logicXor | notx | noty =>
    simp [exec, execAdd, execAddc, execSub, execSubb, execRsub, execRsubb, execNegx, execNegy, execInc, execDec, execPassx,
      execPassy, execPass0, execAnd, execOr, execXor, execNotx, execNoty, mapNext, aluEnd_withBank b hother,
      readAxop_congr (bank_withBank b hother), readAyop_congr (bank_withBank b hother)]
  case abs =>
    simp [exec, execAbs, mapNext, aluEnd_withBank b hother, readAxop_congr (bank_withBank b hother), setAstat_withBank]
  case divs y x =>
    cases y <;> simp [exec, execDivs, mapNext, divShift_withBank b hother, readAxop_congr (bank_withBank b hother),
      readAyop_congr (bank_withBank b hother)]
  case divq =>
    simp [exec, execDivq, mapNext, divShift_withBank b hother, readAxop_congr (bank_withBank b hother), bank_withBank b hother]
  case mul | macc | msub | mrclr =>
    simp [exec, execMul, execMacc, execMsub, execMrclr, mapNext, macEnd_withBank b hother, macProduct_withBank b hother,
      macRound_withBank, bank_withBank b hother]
  case satmr =>
    simp [exec, execSatmr, mapNext, bank_withBank b hother, setBank_withBank b hother, apply_ite (withBank k b)]
  case lshiftImm | ashiftImm | lshiftSe | ashiftSe | norm =>
    simp [exec, execLshiftImm, execAshiftImm, execLshiftSe, execAshiftSe, execNorm, mapNext, srEnd_withBank b hother,
      readSxop_congr (bank_withBank b hother), bank_withBank b hother]
  case expHi | expHix =>
    simp [exec, execExpHi, execExpHix, mapNext, expEnd_withBank b hother, readSxop_congr (bank_withBank b hother),
      apply_ite (withBank k b)]
  case expLo | expadj =>
    simp [exec, execExpLo, execExpadj, mapNext, bank_withBank b hother, setBank_withBank b hother,
      readSxop_congr (bank_withBank b hother), apply_ite (withBank k b)]
  case load | move =>
    simp [exec, execLoad, execMove, mapNext, bank_withBank b hother, setBank_withBank b hother]
  case astatw => simp [exec, execAstatw, mapNext, setAstat_withBank]
  case mode => cases k <;> rfl
  case bias =>
    cases hmember : s.params.hasBiasrnd <;> cases k <;> simp [exec, execBias, mapNext, withBank, hmember]

end

/-- Settles O14, for each of the two banks. -/
theorem inactiveBankIsNotRead : Obligations.InactiveBankIsNotRead :=
  fun i _ b => ⟨fun h => exec_withBank (k := true) b h i, fun h => exec_withBank (k := false) b h i⟩

end Sys2Proof.Claims

end

/-! # Proofs: steps and runs

A step fetches an operation that is well formed and below the end of the program, runs it, and advances `pc`; no
operation writes `pc`, the program or the parameters. The run invariant and the run to the end follow. -/

section

open Sys2Proof Sys2Proof.Machine

namespace Sys2Proof.Claims

/-! ## Reset -/

/-- Settles O1, by the definition of the reset state. -/
theorem resetValues : Obligations.ResetValues := ⟨rfl, rfl, rfl, rfl, rfl, rfl, rfl⟩

/-- Settles O2, by evaluation of the invariant at reset. -/
theorem resetSatisfiesRunInvariant : Obligations.ResetSatisfiesRunInvariant := by
  unfold Obligations.ResetSatisfiesRunInvariant
  decide

/-! ## One step -/

/-- The invariant of a run, clause by clause. -/
theorem ok_iff (s : State) :
    s.ok = true ↔ programSpells s.params s.program = true ∧ s.pc ≤ s.program.length ∧
      (s.params.hasBiasrnd = false → s.biasrnd = false) ∧ s.params.astatLayout.valid = true := by
  cases h : s.params.hasBiasrnd <;> simp [State.ok, h, and_assoc]

/-- On a member without BIASRND no operation writes the bit (R22, R186). -/
theorem exec_keeps_biasrnd_of_absent {i : Instr} {s t : State} (h : exec i s = .next t)
    (habsent : s.params.hasBiasrnd = false) : t.biasrnd = s.biasrnd := by
  cases ends_of_exec_next h with
  | bias b hmember => rw [habsent] at hmember; cases hmember
  | alu | abs | divs | divq | mac | satmrKept | satmr | shift | expHi | expHix | expLoKept | expLo | expadjKept
  | expadj | load | move | astatw | mode => rfl

/-- Settles O6: the operation writes neither `pc` nor program nor parameters, then the step advances `pc`. -/
theorem stepAdvancesTheIndexOnly : Obligations.StepAdvancesTheIndexOnly := by
  intro s t h
  obtain ⟨i, u, -, hexec, rfl⟩ := (step_next_iff s t).1 h
  obtain ⟨hpc, hprogram, hparams⟩ := exec_keeps i s u hexec
  exact ⟨congrArg (· + 1) hpc, hprogram, hparams⟩

/-- Settles O3: the fetch was below the end of the program, and a member without BIASRND cannot write the bit. -/
theorem stepKeepsRunInvariant : Obligations.StepKeepsRunInvariant := by
  intro s t hok h
  obtain ⟨hpc, hprogram, hparams⟩ := stepAdvancesTheIndexOnly s t h
  obtain ⟨i, u, hfetch, hexec, rfl⟩ := (step_next_iff s t).1 h
  obtain ⟨hspells, -, hbias, hlayout⟩ := (ok_iff s).1 hok
  rw [ok_iff, hparams, hprogram, hpc]
  refine ⟨hspells, State.fetch_lt s i hfetch, fun habsent => ?_, hlayout⟩
  exact (exec_keeps_biasrnd_of_absent hexec habsent).trans (hbias habsent)

/-- A step that fetches an operation runs it and advances. -/
theorem step_of_fetch {s : State} {i : Instr} (hfetch : s.fetch = .next i) :
    i.wf s.params = true ∧ ∃ t, exec i s = .next t ∧ step s = .next t.advance := by
  obtain ⟨-, x, -, -, hwf⟩ := (State.fetch_next_iff s i).1 hfetch
  obtain ⟨t, ht, -⟩ := exec_ends i s hwf
  exact ⟨hwf, t, ht, (step_next_iff s _).2 ⟨i, t, hfetch, ht, rfl⟩⟩

/-- Settles O4, for an entry that is an operation and for one that is its code word. -/
theorem stepRunsTheDecodedOperation : Obligations.StepRunsTheDecodedOperation := by
  rintro s i hspells (hop | ⟨w, hword, hdecode⟩)
  · exact step_of_fetch (State.fetch_op s i hspells hop)
  · exact step_of_fetch (State.fetch_word s w i hspells hword hdecode)

/-- Past the last entry of a program that is not refused the fetch faults (R30, R206). -/
theorem step_of_ended {s : State} (hspells : programSpells s.params s.program = true)
    (hend : s.program[s.pc]? = none) : step s = .fault .runEnded := by
  simp only [step, State.fetch, (programRefusal_eq_none_iff _ _).2 hspells, hend]

/-- A step in a program that is refused answers the reason, whatever `pc` is (R205). -/
theorem step_of_refused {s : State} {r : Refusal} (h : programRefusal s.params s.program = some r) :
    step s = .refused r := by
  simp only [step, State.fetch, h]

/-- A program with an entry that spells no operation has a reason to be refused. -/
theorem exists_programRefusal {p : Params} {l : List Slot} (h : programSpells p l = false) :
    ∃ r, programRefusal p l = some r := by
  cases hr : programRefusal p l with
  | some r => exact ⟨r, rfl⟩
  | none => rw [(programRefusal_eq_none_iff p l).1 hr] at h; cases h

/-- Settles O5: the end of the program, and the reason of its first entry that spells no operation. -/
theorem stepStopsAtEndOrBadWord : Obligations.StepStopsAtEndOrBadWord := by
  refine ⟨fun s => step_of_ended, fun s h => ?_, fun s l m i hprogram hl hwf => ?_, fun s l m w e hprogram hl hw => ?_⟩
  · obtain ⟨r, hr⟩ := exists_programRefusal h
    exact ⟨r, step_of_refused hr⟩
  · have hslot : slotRefusal s.params (.op i) = some .noSuchOperation := by simp [slotRefusal, slotInstr, hwf]
    exact step_of_refused (hprogram ▸ programRefusal_first s.params l m _ _ hl hslot)
  · have hslot : slotRefusal s.params (.word w) = some (.badWord e) := by simp [slotRefusal, slotInstr, hw]
    exact step_of_refused (hprogram ▸ programRefusal_first s.params l m _ _ hl hslot)

/-! ## A run to the end -/

/-- Below the end of a program that is not refused the fetch succeeds. -/
theorem exists_fetch_of_lt {s : State} (hspells : programSpells s.params s.program = true)
    (hlt : s.pc < s.program.length) : ∃ i, s.fetch = .next i := by
  have hentry : s.program[s.pc]? = some s.program[s.pc] := List.getElem?_eq_getElem hlt
  have hslot : slotSpells s.params s.program[s.pc] = true :=
    List.all_eq_true.1 hspells _ (List.getElem_mem hlt)
  cases hx : s.program[s.pc] with
  | op i => exact ⟨i, State.fetch_op s i hspells (hx ▸ hentry)⟩
  | word w =>
    cases hd : decode w with
    | ok i => exact ⟨i, State.fetch_word s w i hspells (hx ▸ hentry) hd⟩
    | error e => simp [hx, slotSpells, slotRefusal, slotInstr, hd] at hslot

/-- From `n` entries before the end of a program that is not refused, `n` steps reach the end. -/
theorem run_reaches_end (n : Nat) (s : State) (hspells : programSpells s.params s.program = true)
    (hn : s.pc + n = s.program.length) :
    ∃ t : State, Host.Core.run Sys2Proof.core n s = .next t ∧ t.pc = s.program.length ∧ t.program = s.program ∧
      t.params = s.params := by
  induction n generalizing s with
  | zero => exact ⟨s, rfl, hn, rfl, rfl⟩
  | succ n ih =>
    obtain ⟨i, hfetch⟩ := exists_fetch_of_lt hspells (by omega)
    obtain ⟨-, u, -, hstep⟩ := step_of_fetch hfetch
    obtain ⟨hpc, hprogram, hparams⟩ := stepAdvancesTheIndexOnly s _ hstep
    obtain ⟨t, hrun, htpc, htprogram, htparams⟩ := ih u.advance (by rw [hparams, hprogram]; exact hspells)
      (by rw [hpc, hprogram]; omega)
    refine ⟨t, ?_, htpc.trans (congrArg _ hprogram), htprogram.trans hprogram, htparams.trans hparams⟩
    have hcore : Sys2Proof.core.step s = .next u.advance := hstep
    simp only [Host.Core.run, hcore]
    exact hrun

/-- Settles O7: the run reaches the end, where the next step finds no entry. -/
theorem spelledProgramRunsToItsEnd : Obligations.SpelledProgramRunsToItsEnd := by
  intro s hspells hle
  obtain ⟨t, hrun, hpc, hprogram, hparams⟩ := run_reaches_end (s.program.length - s.pc) s hspells (by omega)
  refine ⟨t, hrun, hpc, hprogram, step_of_ended (by rw [hparams, hprogram]; exact hspells) ?_⟩
  rw [hprogram, hpc]
  exact List.getElem?_eq_none (Nat.le_refl _)

end Sys2Proof.Claims

end

/-! # Proofs: decoding and encoding

The annex's words are compared as numbers: `codeField` divides and takes a remainder, a word is the sum of its fields at
their places. So the fields of each word format are read back by arithmetic, and a word with the fixed bits of a format
is the word of its own fields. The operand codes are handled once per class. -/

section

open Sys2Proof Sys2Proof.Machine

namespace Sys2Proof.Claims

/-! ## Fields as numbers -/

/-- Two vectors side by side, as a number. -/
theorem toNat_append_eq_add {m n : Nat} (x : BitVec m) (y : BitVec n) :
    (x ++ y).toNat = x.toNat * 2 ^ n + y.toNat := by
  rw [BitVec.toNat_append, ← Nat.shiftLeft_add_eq_or_of_lt y.isLt, Nat.shiftLeft_eq]

/-- A field of a code word, as a number. -/
theorem codeField_toNat (w : CodeWord) (lo len : Nat) : (codeField w lo len).toNat = w.toNat / 2 ^ lo % 2 ^ len := by
  rw [codeField, BitVec.extractLsb'_toNat, Nat.shiftRight_eq_div_pow]

/-- What a field holds, as an equation of numbers. -/
theorem codeField_eq_iff (w : CodeWord) (lo len : Nat) (f : BitVec len) :
    codeField w lo len = f ↔ w.toNat / 2 ^ lo % 2 ^ len = f.toNat := by
  rw [← BitVec.toNat_inj, codeField_toNat]

/-- The ten tests of the decoder as tests of the eight upper bits of the word. -/
theorem decode_by_top (w : CodeWord) : decode w =
    if w.toNat / 2 ^ 19 = 4 then decodeCompute w
    else if w.toNat / 2 ^ 20 = 4 then decodeLoad w
    else if w.toNat / 2 ^ 20 = 3 then decodeLoadOther w
    else if w.toNat / 2 ^ 16 = 5 then decodeSat w
    else if w.toNat / 2 ^ 16 = 6 then decodeDivs w
    else if w.toNat / 2 ^ 16 = 7 then decodeDivq w
    else if w.toNat / 2 ^ 16 = 12 then decodeMode w
    else if w.toNat / 2 ^ 16 = 13 then decodeMove w
    else if w.toNat / 2 ^ 16 = 14 then decodeShift w
    else if w.toNat / 2 ^ 16 = 15 then decodeShiftImm w
    else .error .noPattern := by
  have hw := w.isLt
  have h19 : w.toNat / 2 ^ 19 % 2 ^ 5 = w.toNat / 2 ^ 19 := by omega
  have h20 : w.toNat / 2 ^ 20 % 2 ^ 4 = w.toNat / 2 ^ 20 := by omega
  have h16 : w.toNat / 2 ^ 16 % 2 ^ 8 = w.toNat / 2 ^ 16 := by omega
  simp only [decode, codeField_eq_iff, h19, h20, h16]
  rfl

/-- The decoder on the words whose upper four bits are 0, by the other four upper bits. -/
theorem decode_of_top {w : CodeWord} {n : Nat} (htop : w.toNat / 2 ^ 16 = n) (hn : n < 16) : decode w =
    if n = 5 then decodeSat w else if n = 6 then decodeDivs w else if n = 7 then decodeDivq w
    else if n = 12 then decodeMode w else if n = 13 then decodeMove w else if n = 14 then decodeShift w
    else if n = 15 then decodeShiftImm w else .error .noPattern := by
  rw [decode_by_top, if_neg (by omega), if_neg (by omega), if_neg (by omega), htop]

/-! ## Operand codes -/

@[simp] theorem axopOfCode_axopCode (x : Axop) : axopOfCode (axopCode x) = x := by cases x <;> rfl
@[simp] theorem mxopOfCode_mxopCode (x : Mxop) : mxopOfCode (mxopCode x) = x := by cases x <;> rfl
@[simp] theorem sxopOfCode_sxopCode (x : Sxop) : sxopOfCode (sxopCode x) = some x := by cases x <;> rfl
@[simp] theorem ayopOfCode_ayopCode (y : Ayop) : ayopOfCode (ayopCode y) = some y := by cases y <;> rfl
@[simp] theorem myopOfCode_myopCode (y : Myop) : myopOfCode (myopCode y) = some y := by cases y <;> rfl
@[simp] theorem adstOfCode_adstCode (d : Adst) : adstOfCode (adstCode d) = d := by cases d <;> rfl
@[simp] theorem mdstOfCode_mdstCode (d : Mdst) : mdstOfCode (mdstCode d) = d := by cases d <;> rfl
@[simp] theorem dregOfCode_dregCode (d : Dreg) : dregOfCode (dregCode d).1 (dregCode d).2 = some d := by
  cases d <;> rfl
@[simp] theorem ayopCode_ne_three (y : Ayop) : ayopCode y ≠ 3#2 := by cases y <;> decide
@[simp] theorem myopCode_ne_three (y : Myop) : myopCode y ≠ 3#2 := by cases y <;> decide

theorem axopCode_axopOfCode (c : BitVec 3) : axopCode (axopOfCode c) = c := by revert c; decide
theorem mxopCode_mxopOfCode (c : BitVec 3) : mxopCode (mxopOfCode c) = c := by revert c; decide
theorem adstCode_adstOfCode (c : BitVec 1) : adstCode (adstOfCode c) = c := by revert c; decide
theorem mdstCode_mdstOfCode (c : BitVec 1) : mdstCode (mdstOfCode c) = c := by revert c; decide

/-- The codes that name a shifter input. -/
theorem sxopOfCode_map_sxopCode (c : BitVec 3) :
    (sxopOfCode c).map sxopCode = if c = 1#3 then none else some c := by revert c; decide

/-- The codes that name a Y operand of the ALU. -/
theorem ayopOfCode_map_ayopCode (c : BitVec 2) :
    (ayopOfCode c).map ayopCode = if c = 3#2 then none else some c := by revert c; decide

/-- The codes that name a Y operand of the MAC. -/
theorem myopOfCode_map_myopCode (c : BitVec 2) :
    (myopOfCode c).map myopCode = if c = 3#2 then none else some c := by revert c; decide

/-- The groups and codes that name a register of class `dreg`. -/
theorem dregOfCode_map_dregCode (g : BitVec 2) (c : BitVec 4) :
    (dregOfCode g c).map dregCode = if g = 0#2 ∨ (g = 3#2 ∧ c = 6#4) then some (g, c) else none := by
  revert g c; decide

/-- A partial decoding of codes, followed by the encoding, keeps the code. -/
theorem code_eq_of_map {α β : Type} {f : Option α} {g : α → β} {c : β} {p : Prop} [Decidable p] {x : α}
    (hmap : f.map g = if p then some c else none) (hx : f = some x) : g x = c := by
  rw [hx] at hmap
  split at hmap
  · exact Option.some.inj hmap
  · cases hmap

theorem sxopCode_of_sxopOfCode {c : BitVec 3} {x : Sxop} (h : sxopOfCode c = some x) : sxopCode x = c :=
  code_eq_of_map ((sxopOfCode_map_sxopCode c).trans (ite_not ..).symm) h

theorem ayopCode_of_ayopOfCode {c : BitVec 2} {y : Ayop} (h : ayopOfCode c = some y) : ayopCode y = c :=
  code_eq_of_map ((ayopOfCode_map_ayopCode c).trans (ite_not ..).symm) h

theorem myopCode_of_myopOfCode {c : BitVec 2} {y : Myop} (h : myopOfCode c = some y) : myopCode y = c :=
  code_eq_of_map ((myopOfCode_map_myopCode c).trans (ite_not ..).symm) h

theorem dregCode_of_dregOfCode {g : BitVec 2} {c : BitVec 4} {d : Dreg} (h : dregOfCode g c = some d) :
    dregCode d = (g, c) :=
  code_eq_of_map (dregOfCode_map_dregCode g c) h

theorem eq_three_of_ayopOfCode {c : BitVec 2} (h : ayopOfCode c = none) : c = 3#2 := by
  by_contra hne
  have hmap := ayopOfCode_map_ayopCode c
  rw [h, if_neg hne] at hmap
  cases hmap

/-! ## Conditional ALU and MAC words -/

/-- A word is the one an operation is encoded as, and holds every bit of it. -/
def Spells (w : CodeWord) (i : Instr) : Prop :=
  encode i = some w ∧ i.encodable = true ∧ ∀ p : Params, i.wf p = true

theorem toNat_computeWord (z : BitVec 1) (amf : BitVec 5) (yy : BitVec 2) (xxx : BitVec 3) :
    (computeWord z amf yy xxx).toNat =
      4 * 2 ^ 19 + z.toNat * 2 ^ 18 + amf.toNat * 2 ^ 13 + yy.toNat * 2 ^ 11 + xxx.toNat * 2 ^ 8 + 15 := by
  simp only [computeWord, toNat_append_eq_add, BitVec.toNat_ofNat]
  omega

/-- The decoder reads the fields of a conditional ALU or MAC word back. -/
theorem decode_computeWord (z : BitVec 1) (amf : BitVec 5) (yy : BitVec 2) (xxx : BitVec 3) :
    decode (computeWord z amf yy xxx) = if 16 ≤ amf.toNat then decodeAlu amf z yy xxx else decodeMac amf z yy xxx := by
  have hw := toNat_computeWord z amf yy xxx
  have htop : (computeWord z amf yy xxx).toNat / 2 ^ 19 = 4 := by omega
  have hzero : codeField (computeWord z amf yy xxx) 4 4 = 0#4 := by rw [codeField_eq_iff, hw, BitVec.toNat_ofNat]; omega
  have hcond : codeField (computeWord z amf yy xxx) 0 4 = 15#4 := by rw [codeField_eq_iff, hw, BitVec.toNat_ofNat]; omega
  have half : codeField (computeWord z amf yy xxx) 17 1 = 1#1 ↔ 16 ≤ amf.toNat := by
    rw [codeField_eq_iff, hw, BitVec.toNat_ofNat]; omega
  have hz : codeField (computeWord z amf yy xxx) 18 1 = z := by rw [codeField_eq_iff, hw]; omega
  have hamf : codeField (computeWord z amf yy xxx) 13 5 = amf := by rw [codeField_eq_iff, hw]; omega
  have hyy : codeField (computeWord z amf yy xxx) 11 2 = yy := by rw [codeField_eq_iff, hw]; omega
  have hxxx : codeField (computeWord z amf yy xxx) 8 3 = xxx := by rw [codeField_eq_iff, hw]; omega
  rw [decode_by_top, if_pos htop]
  simp only [decodeCompute, hzero, hcond, half, hz, hamf, hyy, hxxx, ne_eq, not_true_eq_false, if_false]

/-- A word with the fixed bits of an ALU or MAC word is the one of its fields. -/
theorem eq_computeWord {w : CodeWord} (htop : w.toNat / 2 ^ 19 = 4) (hzero : codeField w 4 4 = 0#4)
    (hcond : codeField w 0 4 = 15#4) :
    w = computeWord (codeField w 18 1) (codeField w 13 5) (codeField w 11 2) (codeField w 8 3) := by
  rw [codeField_eq_iff] at hzero hcond
  simp only [BitVec.toNat_ofNat, Nat.reducePow, Nat.reduceMod] at hzero hcond
  apply BitVec.eq_of_toNat_eq
  simp only [toNat_computeWord, codeField_toNat]
  omega

/-- A vector whose number is known. -/
theorem eq_ofNat_of_toNat_eq {n k : Nat} {v : BitVec n} (h : v.toNat = k) : v = BitVec.ofNat n k := by
  rw [← h, BitVec.ofNat_toNat, BitVec.setWidth_eq]

/-- The AMF codes of the ALU functions name the operations encoded with them. -/
theorem spells_of_decodeAlu {amf : BitVec 5} {z : BitVec 1} {yy : BitVec 2} {xxx : BitVec 3} {i : Instr}
    (h : decodeAlu amf z yy xxx = .ok i) : Spells (computeWord z amf yy xxx) i := by
  obtain ⟨d, rfl⟩ : ∃ d, z = adstCode d := ⟨_, (adstCode_adstOfCode z).symm⟩
  obtain ⟨x, rfl⟩ : ∃ x, xxx = axopCode x := ⟨_, (axopCode_axopOfCode xxx).symm⟩
  cases hy : ayopOfCode yy with
  | some y =>
    obtain rfl := ayopCode_of_ayopOfCode hy
    simp only [decodeAlu, adstOfCode_adstCode, axopOfCode_axopCode, ayopOfCode_ayopCode, ayopCode_ne_three, if_false] at h
    split at h
    all_goals rename_i hamf
    case h_17 => cases h
    all_goals obtain rfl := eq_ofNat_of_toNat_eq hamf
    case h_1 | h_2 | h_5 | h_6 | h_9 =>
      split at h <;> cases h
      rename_i hx
      rw [hx]
      exact ⟨rfl, rfl, fun _ => rfl⟩
    case h_12 | h_16 =>
      split at h <;> cases h
      rename_i hy0
      rw [hy0]
      exact ⟨rfl, rfl, fun _ => rfl⟩
    all_goals
      cases h
      exact ⟨rfl, rfl, fun _ => rfl⟩
  | none =>
    obtain rfl := eq_three_of_ayopOfCode hy
    simp only [decodeAlu, adstOfCode_adstCode, axopOfCode_axopCode, hy, if_true] at h
    split at h
    all_goals rename_i hamf
    case h_17 => cases h
    all_goals obtain rfl := eq_ofNat_of_toNat_eq hamf
    case h_1 =>
      split at h <;> cases h
      rename_i hx
      rw [hx]
      exact ⟨rfl, rfl, fun _ => rfl⟩
    case h_4 | h_10 =>
      cases h
      exact ⟨rfl, rfl, fun _ => rfl⟩
    case h_3 | h_7 | h_8 | h_11 | h_13 | h_14 | h_15 => cases h
    all_goals split at h <;> cases h
    all_goals contradiction

/-- The AMF codes of the MAC functions name the operations encoded with them. -/
theorem spells_of_decodeMac {amf : BitVec 5} {z : BitVec 1} {yy : BitVec 2} {xxx : BitVec 3} {i : Instr}
    (h : decodeMac amf z yy xxx = .ok i) : Spells (computeWord z amf yy xxx) i := by
  cases hy : myopOfCode yy with
  | some y =>
    obtain ⟨d, rfl⟩ : ∃ d, z = mdstCode d := ⟨_, (mdstCode_mdstOfCode z).symm⟩
    obtain ⟨x, rfl⟩ : ∃ x, xxx = mxopCode x := ⟨_, (mxopCode_mxopOfCode xxx).symm⟩
    obtain rfl := myopCode_of_myopOfCode hy
    simp only [decodeMac, mdstOfCode_mdstCode, mxopOfCode_mxopCode, myopOfCode_myopCode, myopCode_ne_three, if_false] at h
    split at h
    all_goals rename_i hamf
    case h_16 => cases h
    all_goals
      obtain rfl := eq_ofNat_of_toNat_eq hamf
      cases h
      exact ⟨rfl, rfl, fun _ => rfl⟩
  | none =>
    simp only [decodeMac, hy] at h
    split at h
    case h_4 hamf =>
      obtain rfl := eq_ofNat_of_toNat_eq hamf
      split at h
      · split at h <;> cases h
        obtain ⟨rfl, rfl⟩ : z = 0#1 ∧ xxx = 0#3 := by assumption
        subst yy
        exact ⟨rfl, rfl, fun _ => rfl⟩
      · cases h
    all_goals cases h

/-- A conditional ALU or MAC word that the decoder accepts. -/
theorem spells_of_decodeCompute {w : CodeWord} {i : Instr} (htop : w.toNat / 2 ^ 19 = 4)
    (h : decodeCompute w = .ok i) : Spells w i := by
  unfold decodeCompute at h
  split at h
  · cases h
  · rename_i hzero
    split at h
    · cases h
    · rename_i hcond
      rw [eq_computeWord htop (not_not.1 hzero) (not_not.1 hcond)]
      split at h
      · exact spells_of_decodeAlu h
      · exact spells_of_decodeMac h

/-! ## Division and SAT MR -/

/-- The word of DIVS by its two codes. -/
def divsWord (yy : BitVec 2) (xxx : BitVec 3) : CodeWord := 0b00000110#8 ++ 0b000#3 ++ yy ++ xxx ++ 0b00000000#8

/-- The word of DIVQ by its code. -/
def divqWord (xxx : BitVec 3) : CodeWord := 0b00000111#8 ++ 0b00010#5 ++ xxx ++ 0b00000000#8

theorem encode_divs (y : Ayop) (x : Axop) : encode (.divs y x) = some (divsWord (ayopCode y) (axopCode x)) := rfl

theorem encode_divq (x : Axop) : encode (.divq x) = some (divqWord (axopCode x)) := rfl

theorem toNat_divsWord (yy : BitVec 2) (xxx : BitVec 3) :
    (divsWord yy xxx).toNat = 6 * 2 ^ 16 + yy.toNat * 2 ^ 11 + xxx.toNat * 2 ^ 8 := by
  simp only [divsWord, toNat_append_eq_add, BitVec.toNat_ofNat]
  omega

theorem toNat_divqWord (xxx : BitVec 3) : (divqWord xxx).toNat = 7 * 2 ^ 16 + 2 * 2 ^ 11 + xxx.toNat * 2 ^ 8 := by
  simp only [divqWord, toNat_append_eq_add, BitVec.toNat_ofNat]
  omega

theorem decode_divsWord (y : Ayop) (x : Axop) (hy : y.holdsSignedDividend = true) :
    decode (divsWord (ayopCode y) (axopCode x)) = .ok (.divs y x) := by
  have hw := toNat_divsWord (ayopCode y) (axopCode x)
  generalize divsWord (ayopCode y) (axopCode x) = w at hw
  have hfix : codeField w 13 3 = 0#3 := by rw [codeField_eq_iff, hw, BitVec.toNat_ofNat]; omega
  have hlow : codeField w 0 8 = 0#8 := by rw [codeField_eq_iff, hw, BitVec.toNat_ofNat]; omega
  have hyy : codeField w 11 2 = ayopCode y := by rw [codeField_eq_iff, hw]; omega
  have hxxx : codeField w 8 3 = axopCode x := by rw [codeField_eq_iff, hw]; omega
  have hdecode : decode w = decodeDivs w := decode_of_top (n := 6) (by omega) (by decide)
  rw [hdecode]
  cases y with
  | ay0 => cases hy
  | ay1 | af => simp [decodeDivs, hfix, hlow, hyy, hxxx]

theorem decode_divqWord (x : Axop) : decode (divqWord (axopCode x)) = .ok (.divq x) := by
  have hw := toNat_divqWord (axopCode x)
  generalize divqWord (axopCode x) = w at hw
  have hfix : codeField w 11 5 = 2#5 := by rw [codeField_eq_iff, hw, BitVec.toNat_ofNat]; omega
  have hlow : codeField w 0 8 = 0#8 := by rw [codeField_eq_iff, hw, BitVec.toNat_ofNat]; omega
  have hxxx : codeField w 8 3 = axopCode x := by rw [codeField_eq_iff, hw]; omega
  have hdecode : decode w = decodeDivq w := decode_of_top (n := 7) (by omega) (by decide)
  simp [hdecode, decodeDivq, hfix, hlow, hxxx]

/-- A DIVS word that the decoder accepts. -/
theorem spells_of_decodeDivs {w : CodeWord} {i : Instr} (htop : w.toNat / 2 ^ 16 = 6) (h : decodeDivs w = .ok i) :
    Spells w i := by
  unfold decodeDivs at h
  split at h
  · cases h
  · rename_i hfix
    rw [not_or, not_not, not_not, codeField_eq_iff, codeField_eq_iff, BitVec.toNat_ofNat, BitVec.toNat_ofNat] at hfix
    have hw : divsWord (codeField w 11 2) (codeField w 8 3) = w := by
      apply BitVec.eq_of_toNat_eq
      rw [toNat_divsWord, codeField_toNat, codeField_toNat]
      omega
    split at h
    case h_1 hy | h_2 hy =>
      cases h
      refine ⟨?_, rfl, fun _ => rfl⟩
      rw [encode_divs, ayopCode_of_ayopOfCode hy, axopCode_axopOfCode, hw]
    all_goals cases h

/-- A DIVQ word that the decoder accepts. -/
theorem spells_of_decodeDivq {w : CodeWord} {i : Instr} (htop : w.toNat / 2 ^ 16 = 7) (h : decodeDivq w = .ok i) :
    Spells w i := by
  unfold decodeDivq at h
  split at h <;> cases h
  rename_i hfix
  rw [not_or, not_not, not_not, codeField_eq_iff, codeField_eq_iff, BitVec.toNat_ofNat, BitVec.toNat_ofNat] at hfix
  refine ⟨?_, rfl, fun _ => rfl⟩
  rw [encode_divq, axopCode_axopOfCode]
  congr 1
  apply BitVec.eq_of_toNat_eq
  rw [toNat_divqWord, codeField_toNat]
  omega

/-- A SAT MR word that the decoder accepts. -/
theorem spells_of_decodeSat {w : CodeWord} {i : Instr} (htop : w.toNat / 2 ^ 16 = 5) (h : decodeSat w = .ok i) :
    Spells w i := by
  unfold decodeSat at h
  split at h <;> cases h
  rename_i hfix
  rw [not_not, codeField_eq_iff, BitVec.toNat_ofNat] at hfix
  have hw : w = 0b000001010000000000000000#24 := by
    apply BitVec.eq_of_toNat_eq
    rw [BitVec.toNat_ofNat]
    omega
  rw [hw]
  exact ⟨rfl, rfl, fun _ => rfl⟩

/-! ## Shifts -/

/-- The HI/LO bit of a reference point. -/
def hiLoCode : HiLo → BitVec 1
  | .hi => 0#1
  | .lo => 1#1

/-- The [SR OR] bit. -/
def orCode (o : Bool) : BitVec 1 := if o then 1#1 else 0#1

@[simp] theorem hiLoOfCode_hiLoCode (h : HiLo) : hiLoOfCode (hiLoCode h) = h := by cases h <;> rfl
@[simp] theorem decide_orCode (o : Bool) : decide (orCode o = 1#1) = o := by cases o <;> rfl
theorem hiLoCode_hiLoOfCode (c : BitVec 1) : hiLoCode (hiLoOfCode c) = c := by revert c; decide
theorem orCode_decide (c : BitVec 1) : orCode (decide (c = 1#1)) = c := by revert c; decide

theorem toNat_shiftSf (fn : BitVec 2) (h : HiLo) (o : Bool) :
    (shiftSf fn h o).toNat = fn.toNat * 4 + (hiLoCode h).toNat * 2 + (orCode o).toNat := by
  have hsf : shiftSf fn h o = fn ++ hiLoCode h ++ orCode o := by cases h <;> rfl
  rw [hsf, toNat_append_eq_add, toNat_append_eq_add]
  omega

theorem toNat_shiftWord (sf : BitVec 4) (xxx : BitVec 3) :
    (shiftWord sf xxx).toNat = 14 * 2 ^ 16 + sf.toNat * 2 ^ 11 + xxx.toNat * 2 ^ 8 + 15 := by
  simp only [shiftWord, toNat_append_eq_add, BitVec.toNat_ofNat]
  omega

theorem toNat_shiftImmWord (sf : BitVec 4) (xxx : BitVec 3) (e : BitVec 8) :
    (shiftImmWord sf xxx e).toNat = 15 * 2 ^ 16 + sf.toNat * 2 ^ 11 + xxx.toNat * 2 ^ 8 + e.toNat := by
  simp only [shiftImmWord, toNat_append_eq_add, BitVec.toNat_ofNat]
  omega

/-- The operation of a conditional-shift word by its function bits, reference bit and [SR OR] bit; with the function
bits 11 the two other bits select the exponent operation. -/
def shiftOf (fn : BitVec 2) (h : HiLo) (o : Bool) (x : Sxop) : Instr :=
  match fn.toNat with
  | 0 => .lshiftSe x h o
  | 1 => .ashiftSe x h o
  | 2 => .norm x h o
  | _ =>
    match h, o with
    | .hi, false => .expHi x
    | .hi, true => .expHix x
    | .lo, false => .expLo x
    | .lo, true => .expadj x

/-- The two values of a bit. -/
theorem bitVec1_cases (v : BitVec 1) : v = 0#1 ∨ v = 1#1 := by revert v; decide

/-- The four values of a two-bit field. -/
theorem bitVec2_cases (v : BitVec 2) : v = 0#2 ∨ v = 1#2 ∨ v = 2#2 ∨ v = 3#2 := by revert v; decide

/-- Each conditional shift is encoded by its function bits, reference bit and [SR OR] bit. -/
theorem spells_shiftOf (fn : BitVec 2) (h : HiLo) (o : Bool) (x : Sxop) :
    Spells (shiftWord (shiftSf fn h o) (sxopCode x)) (shiftOf fn h o x) := by
  obtain rfl | rfl | rfl | rfl := bitVec2_cases fn
  case inr.inr.inr => cases h <;> cases o <;> exact ⟨rfl, rfl, fun _ => rfl⟩
  all_goals exact ⟨rfl, rfl, fun _ => rfl⟩

/-- The decoder reads a conditional-shift word by its fields. -/
theorem decodeShift_eq_shiftOf {w : CodeWord} {x : Sxop} (hfix : codeField w 15 1 = 0#1) (hzero : codeField w 4 4 = 0#4)
    (hcond : codeField w 0 4 = 15#4) (hx : sxopOfCode (codeField w 8 3) = some x) :
    decodeShift w = .ok (shiftOf (codeField w 13 2) (hiLoOfCode (codeField w 12 1))
      (decide (codeField w 11 1 = 1#1)) x) := by
  have hpair : codeField w 11 2 = codeField w 12 1 ++ codeField w 11 1 := by
    rw [codeField_eq_iff, toNat_append_eq_add, codeField_toNat, codeField_toNat]
    omega
  simp only [decodeShift, hfix, hzero, hcond, hx, hpair]
  obtain hfn | hfn | hfn | hfn := bitVec2_cases (codeField w 13 2)
  case inr.inr.inr =>
    obtain hhl | hhl := bitVec1_cases (codeField w 12 1) <;> obtain ho | ho := bitVec1_cases (codeField w 11 1) <;>
      rw [hfn, hhl, ho] <;> rfl
  all_goals rw [hfn]; rfl

/-- The decoder reads a conditional-shift word back. -/
theorem decode_shiftWord (fn : BitVec 2) (h : HiLo) (o : Bool) (x : Sxop) :
    decode (shiftWord (shiftSf fn h o) (sxopCode x)) = .ok (shiftOf fn h o x) := by
  have hw := toNat_shiftWord (shiftSf fn h o) (sxopCode x)
  rw [toNat_shiftSf] at hw
  generalize shiftWord (shiftSf fn h o) (sxopCode x) = w at hw
  have hfix : codeField w 15 1 = 0#1 := by rw [codeField_eq_iff, hw, BitVec.toNat_ofNat]; omega
  have hzero : codeField w 4 4 = 0#4 := by rw [codeField_eq_iff, hw, BitVec.toNat_ofNat]; omega
  have hcond : codeField w 0 4 = 15#4 := by rw [codeField_eq_iff, hw, BitVec.toNat_ofNat]; omega
  have hxxx : codeField w 8 3 = sxopCode x := by rw [codeField_eq_iff, hw]; omega
  have hfn : codeField w 13 2 = fn := by rw [codeField_eq_iff, hw]; omega
  have hhl : codeField w 12 1 = hiLoCode h := by rw [codeField_eq_iff, hw]; omega
  have ho : codeField w 11 1 = orCode o := by rw [codeField_eq_iff, hw]; omega
  have hdecode : decode w = decodeShift w := decode_of_top (n := 14) (by omega) (by decide)
  have hx : sxopOfCode (codeField w 8 3) = some x := by rw [hxxx, sxopOfCode_sxopCode]
  rw [hdecode, decodeShift_eq_shiftOf hfix hzero hcond hx, hfn, hhl, ho, hiLoOfCode_hiLoCode, decide_orCode]

/-- A conditional-shift word that the decoder accepts. -/
theorem spells_of_decodeShift {w : CodeWord} {i : Instr} (htop : w.toNat / 2 ^ 16 = 14) (h : decodeShift w = .ok i) :
    Spells w i := by
  by_cases hfix : codeField w 15 1 = 0#1
  case neg => simp [decodeShift, hfix] at h
  by_cases hzero : codeField w 4 4 = 0#4
  case neg => simp [decodeShift, hzero] at h
  by_cases hcond : codeField w 0 4 = 15#4
  case neg => simp [decodeShift, hfix, hzero, hcond] at h
  cases hx : sxopOfCode (codeField w 8 3) with
  | none => simp [decodeShift, hfix, hzero, hcond, hx] at h
  | some x =>
    rw [decodeShift_eq_shiftOf hfix hzero hcond hx] at h
    cases h
    have hw : shiftWord (shiftSf (codeField w 13 2) (hiLoOfCode (codeField w 12 1)) (decide (codeField w 11 1 = 1#1)))
        (sxopCode x) = w := by
      rw [codeField_eq_iff, BitVec.toNat_ofNat] at hfix hzero hcond
      apply BitVec.eq_of_toNat_eq
      rw [toNat_shiftWord, toNat_shiftSf, hiLoCode_hiLoOfCode, orCode_decide, sxopCode_of_sxopOfCode hx]
      simp only [codeField_toNat]
      omega
    have hspells := spells_shiftOf (codeField w 13 2) (hiLoOfCode (codeField w 12 1))
      (decide (codeField w 11 1 = 1#1)) x
    rwa [hw] at hspells

/-- The decoder reads a shift-immediate word back. -/
theorem decode_shiftImmWord (fn : BitVec 2) (h : HiLo) (o : Bool) (x : Sxop) (e : BitVec 8) :
    decode (shiftImmWord (shiftSf fn h o) (sxopCode x) e) =
      if fn = 0#2 then .ok (.lshiftImm x e h o) else if fn = 1#2 then .ok (.ashiftImm x e h o) else .error .fixedBit := by
  have hw := toNat_shiftImmWord (shiftSf fn h o) (sxopCode x) e
  rw [toNat_shiftSf] at hw
  generalize shiftImmWord (shiftSf fn h o) (sxopCode x) e = w at hw
  have hfn : codeField w 13 3 = fn.setWidth 3 := by
    rw [codeField_eq_iff, hw, BitVec.toNat_setWidth]; omega
  have hxxx : codeField w 8 3 = sxopCode x := by rw [codeField_eq_iff, hw]; omega
  have he : codeField w 0 8 = e := by rw [codeField_eq_iff, hw]; omega
  have hhl : codeField w 12 1 = hiLoCode h := by rw [codeField_eq_iff, hw]; omega
  have ho : codeField w 11 1 = orCode o := by rw [codeField_eq_iff, hw]; omega
  have hdecode : decode w = decodeShiftImm w := decode_of_top (n := 15) (by omega) (by decide)
  rw [hdecode]
  simp only [decodeShiftImm, hfn, hxxx, he, hhl, ho, sxopOfCode_sxopCode, hiLoOfCode_hiLoCode, decide_orCode]
  obtain rfl | rfl | rfl | rfl := bitVec2_cases fn <;> rfl

/-- A shift-immediate word that the decoder accepts. -/
theorem spells_of_decodeShiftImm {w : CodeWord} {i : Instr} (htop : w.toNat / 2 ^ 16 = 15)
    (h : decodeShiftImm w = .ok i) : Spells w i := by
  cases hx : sxopOfCode (codeField w 8 3) with
  | none => simp [decodeShiftImm, hx] at h
  | some x =>
    have hw (fn : BitVec 2) (hfn : (codeField w 13 3).toNat = fn.toNat) :
        shiftImmWord (shiftSf fn (hiLoOfCode (codeField w 12 1)) (decide (codeField w 11 1 = 1#1))) (sxopCode x)
          (codeField w 0 8) = w := by
      rw [codeField_toNat] at hfn
      apply BitVec.eq_of_toNat_eq
      rw [toNat_shiftImmWord, toNat_shiftSf, hiLoCode_hiLoOfCode, orCode_decide, sxopCode_of_sxopOfCode hx]
      simp only [codeField_toNat]
      omega
    simp only [decodeShiftImm, hx] at h
    split at h <;> cases h
    case h_1 hfn => exact ⟨congrArg some (hw 0#2 hfn), rfl, fun _ => rfl⟩
    case h_2 hfn => exact ⟨congrArg some (hw 1#2 hfn), rfl, fun _ => rfl⟩

/-! ## Register loads -/

/-- The word that loads a data register. -/
def loadWord (v : Word) (c : BitVec 4) : CodeWord := 0b0100#4 ++ v ++ c

/-- The word that loads a non-data register. -/
def loadOtherWord (v : BitVec 14) (c : BitVec 4) : CodeWord := 0b001111#6 ++ v ++ c

theorem encode_load_of_ne {d : Dreg} (v : Word) (hd : d ≠ .sb) : encode (.load d v) = some (loadWord v (dregCode d).2) := by
  cases d <;> first | rfl | contradiction

theorem encode_load_sb (v : Word) : encode (.load .sb v) = some (loadOtherWord (data14 v) 6#4) := rfl

theorem encode_astatw (v : Word) : encode (.astatw v) = some (loadOtherWord (data14 v) 0#4) := rfl

/-- The data registers are those of group 0, so SB is none of them. -/
theorem dregCode_group_zero {d : Dreg} (hd : d ≠ .sb) : (dregCode d).1 = 0#2 := by
  cases d <;> first | rfl | contradiction

theorem encodable_load_of_ne {d : Dreg} (v : Word) (hd : d ≠ .sb) : Instr.encodable (.load d v) = true := by
  cases d <;> first | rfl | contradiction

theorem toNat_loadWord (v : Word) (c : BitVec 4) : (loadWord v c).toNat = 4 * 2 ^ 20 + v.toNat * 2 ^ 4 + c.toNat := by
  simp only [loadWord, toNat_append_eq_add, BitVec.toNat_ofNat]
  omega

theorem toNat_loadOtherWord (v : BitVec 14) (c : BitVec 4) :
    (loadOtherWord v c).toNat = 15 * 2 ^ 18 + v.toNat * 2 ^ 4 + c.toNat := by
  simp only [loadOtherWord, toNat_append_eq_add, BitVec.toNat_ofNat]
  omega

theorem decode_loadWord {d : Dreg} (v : Word) (hd : d ≠ .sb) : decode (loadWord v (dregCode d).2) = .ok (.load d v) := by
  have hw := toNat_loadWord v (dregCode d).2
  generalize loadWord v (dregCode d).2 = w at hw
  have hc : codeField w 0 4 = (dregCode d).2 := by rw [codeField_eq_iff, hw]; omega
  have hv : codeField w 4 16 = v := by rw [codeField_eq_iff, hw]; omega
  have hreg : dregOfCode 0#2 (dregCode d).2 = some d := dregCode_group_zero hd ▸ dregOfCode_dregCode d
  rw [decode_by_top, if_neg (by omega), if_pos (by omega)]
  simp only [decodeLoad, hc, hv, hreg]

/-- The decoder sign-extends the 14 bits of a constant for SB or ASTAT. -/
theorem decode_loadOtherWord (v : BitVec 14) :
    decode (loadOtherWord v 6#4) = .ok (.load .sb (v.signExtend 16)) ∧
      decode (loadOtherWord v 0#4) = .ok (.astatw (v.signExtend 16)) := by
  have hfields (c : BitVec 4) : codeField (loadOtherWord v c) 18 2 = 3#2 ∧ codeField (loadOtherWord v c) 4 14 = v ∧
      codeField (loadOtherWord v c) 0 4 = c := by
    simp only [codeField_eq_iff, toNat_loadOtherWord, BitVec.toNat_ofNat]
    omega
  have hdecode (c : BitVec 4) : decode (loadOtherWord v c) = decodeLoadOther (loadOtherWord v c) := by
    rw [decode_by_top, toNat_loadOtherWord, if_neg (by omega), if_neg (by omega), if_pos (by omega)]
  constructor
  · obtain ⟨hgroup, hv, hc⟩ := hfields 6#4
    rw [hdecode, decodeLoadOther, hgroup, hv, hc]
    rfl
  · obtain ⟨hgroup, hv, hc⟩ := hfields 0#4
    rw [hdecode, decodeLoadOther, hgroup, hv, hc]
    rfl

/-- The low bits of a constant cut to 14 bits and sign-extended are those of the constant. -/
theorem getLsbD_signExtend_data14 (v : Word) {k : Nat} (hk : k < 14) :
    ((data14 v).signExtend 16).getLsbD k = v.getLsbD k := by
  rw [BitVec.getLsbD_signExtend, if_pos hk, decide_eq_true (show k < 16 by omega), Bool.true_and, data14,
    BitVec.getLsbD_extractLsb', decide_eq_true hk, Bool.true_and, Nat.zero_add]

/-- The 14 low bits of a sign-extended 14-bit constant. -/
theorem data14_signExtend (v : BitVec 14) : data14 (v.signExtend 16) = v := by
  apply BitVec.eq_of_getLsbD_eq
  intro k hk
  rw [data14, BitVec.getLsbD_extractLsb', decide_eq_true hk, Bool.true_and, Nat.zero_add, BitVec.getLsbD_signExtend,
    if_pos hk, decide_eq_true (show k < 16 by omega), Bool.true_and]

/-- A word that loads a data register, as the decoder accepts it. -/
theorem spells_of_decodeLoad {w : CodeWord} {i : Instr} (htop : w.toNat / 2 ^ 20 = 4) (h : decodeLoad w = .ok i) :
    Spells w i := by
  unfold decodeLoad at h
  split at h <;> cases h
  rename_i d hd
  have hcode := dregCode_of_dregOfCode hd
  have hne : d ≠ .sb := by
    rintro rfl
    cases congrArg Prod.fst hcode
  have hw : loadWord (codeField w 4 16) (codeField w 0 4) = w := by
    apply BitVec.eq_of_toNat_eq
    rw [toNat_loadWord, codeField_toNat, codeField_toNat]
    omega
  refine ⟨?_, encodable_load_of_ne _ hne, fun _ => rfl⟩
  rw [encode_load_of_ne _ hne, hcode, hw]

/-- A word that loads a non-data register, as the decoder accepts it. -/
theorem spells_of_decodeLoadOther {w : CodeWord} {i : Instr} (htop : w.toNat / 2 ^ 20 = 3)
    (h : decodeLoadOther w = .ok i) : Spells w i := by
  unfold decodeLoadOther at h
  split at h
  · cases h
  · rename_i hgroup
    rw [not_not, codeField_eq_iff, BitVec.toNat_ofNat] at hgroup
    have hw (c : BitVec 4) (hc : (codeField w 0 4).toNat = c.toNat) : loadOtherWord (codeField w 4 14) c = w := by
      rw [codeField_toNat] at hc
      apply BitVec.eq_of_toNat_eq
      rw [toNat_loadOtherWord, codeField_toNat]
      omega
    split at h <;> cases h
    case h_1 hc =>
      refine ⟨?_, by simp [Instr.encodable, data14_signExtend], fun _ => rfl⟩
      rw [encode_load_sb, data14_signExtend, hw 6#4 hc]
    case h_2 hc =>
      refine ⟨?_, by simp [Instr.encodable, data14_signExtend], fun _ => rfl⟩
      rw [encode_astatw, data14_signExtend, hw 0#4 hc]

/-! ## Moves and modes -/

/-- The word of a move by the groups and codes of its registers. -/
def moveWord (d src : BitVec 2 × BitVec 4) : CodeWord := 0b00001101#8 ++ 0b0000#4 ++ d.1 ++ src.1 ++ d.2 ++ src.2

theorem encode_move (d src : Dreg) : encode (.move d src) = some (moveWord (dregCode d) (dregCode src)) := rfl

theorem toNat_moveWord (d src : BitVec 2 × BitVec 4) : (moveWord d src).toNat =
    13 * 2 ^ 16 + d.1.toNat * 2 ^ 10 + src.1.toNat * 2 ^ 8 + d.2.toNat * 2 ^ 4 + src.2.toNat := by
  simp only [moveWord, toNat_append_eq_add, BitVec.toNat_ofNat]
  omega

theorem decode_moveWord (d src : Dreg) : decode (moveWord (dregCode d) (dregCode src)) = .ok (.move d src) := by
  have hw := toNat_moveWord (dregCode d) (dregCode src)
  generalize moveWord (dregCode d) (dregCode src) = w at hw
  have hfix : codeField w 12 4 = 0#4 := by rw [codeField_eq_iff, hw, BitVec.toNat_ofNat]; omega
  have hdg : codeField w 10 2 = (dregCode d).1 := by rw [codeField_eq_iff, hw]; omega
  have hsg : codeField w 8 2 = (dregCode src).1 := by rw [codeField_eq_iff, hw]; omega
  have hdc : codeField w 4 4 = (dregCode d).2 := by rw [codeField_eq_iff, hw]; omega
  have hsc : codeField w 0 4 = (dregCode src).2 := by rw [codeField_eq_iff, hw]; omega
  have hdecode : decode w = decodeMove w := decode_of_top (n := 13) (by omega) (by decide)
  simp [hdecode, decodeMove, hfix, hdg, hsg, hdc, hsc]

/-- A move word that the decoder accepts. -/
theorem spells_of_decodeMove {w : CodeWord} {i : Instr} (htop : w.toNat / 2 ^ 16 = 13) (h : decodeMove w = .ok i) :
    Spells w i := by
  unfold decodeMove at h
  split at h
  · cases h
  · rename_i hfix
    rw [not_not, codeField_eq_iff, BitVec.toNat_ofNat] at hfix
    split at h <;> cases h
    rename_i hsrc hd
    refine ⟨?_, rfl, fun _ => rfl⟩
    rw [encode_move, dregCode_of_dregOfCode hd, dregCode_of_dregOfCode hsrc]
    congr 1
    apply BitVec.eq_of_toNat_eq
    simp only [toNat_moveWord, codeField_toNat]
    omega

theorem decode_modeWord (m : Mode) (ena : Bool) : decode (modeWord m ena) = .ok (.mode m ena) := by
  cases m <;> cases ena <;> rfl

/-- A mode-control word that the decoder accepts. -/
theorem spells_of_decodeMode {w : CodeWord} {i : Instr} (htop : w.toNat / 2 ^ 16 = 12) (h : decodeMode w = .ok i) :
    Spells w i := by
  have hw (c : Nat) (hc : (codeField w 0 16).toNat = c) : BitVec.ofNat 24 (12 * 2 ^ 16 + c) = w := by
    rw [codeField_toNat] at hc
    apply BitVec.eq_of_toNat_eq
    rw [BitVec.toNat_ofNat]
    omega
  unfold decodeMode at h
  split at h <;> cases h
  all_goals
    rename_i hc
    rw [← hw _ hc]
    exact ⟨rfl, rfl, fun _ => rfl⟩

/-! ## Both directions -/

/-- Settles O18: each word type that the decoder accepts is the word of the operation it reads. -/
theorem encodingADecodedWord : Obligations.EncodingADecodedWord := by
  intro w i h
  rw [decode_by_top] at h
  split at h
  · exact spells_of_decodeCompute (by assumption) h
  split at h
  · exact spells_of_decodeLoad (by assumption) h
  split at h
  · exact spells_of_decodeLoadOther (by assumption) h
  split at h
  · exact spells_of_decodeSat (by assumption) h
  split at h
  · exact spells_of_decodeDivs (by assumption) h
  split at h
  · exact spells_of_decodeDivq (by assumption) h
  split at h
  · exact spells_of_decodeMode (by assumption) h
  split at h
  · exact spells_of_decodeMove (by assumption) h
  split at h
  · exact spells_of_decodeShift (by assumption) h
  split at h
  · exact spells_of_decodeShiftImm (by assumption) h
  · cases h

/-- Settles O17: the decoder reads the fields of each word type back. -/
theorem decodingAnEncodedOperation : Obligations.DecodingAnEncodedOperation := by
  intro p i hwf hencodable
  cases i
  case add | addc | sub | subb | rsub | rsubb | negx | negy | inc | dec | passx | passy | pass0 | abs | logicAnd | logicOr
      | logicXor | notx | noty =>
    exact ⟨_, rfl, by simp [decode_computeWord, decodeAlu]⟩
  case mul d x y f | macc d x y f | msub d x y f =>
    refine ⟨_, rfl, ?_⟩
    cases f <;> simp [decode_computeWord, decodeMac, mulAmf, maccAmf, msubAmf]
  case mrclr => exact ⟨_, rfl, rfl⟩
  case satmr => exact ⟨_, rfl, rfl⟩
  case divs y x => exact ⟨_, rfl, decode_divsWord y x hwf⟩
  case divq x => exact ⟨_, rfl, decode_divqWord x⟩
  case lshiftImm x e h o => exact ⟨_, rfl, decode_shiftImmWord 0#2 h o x e⟩
  case ashiftImm x e h o => exact ⟨_, rfl, decode_shiftImmWord 1#2 h o x e⟩
  case lshiftSe x h o => exact ⟨_, rfl, decode_shiftWord 0#2 h o x⟩
  case ashiftSe x h o => exact ⟨_, rfl, decode_shiftWord 1#2 h o x⟩
  case norm x h o => exact ⟨_, rfl, decode_shiftWord 2#2 h o x⟩
  case expHi x => exact ⟨_, rfl, decode_shiftWord 3#2 .hi false x⟩
  case expHix x => exact ⟨_, rfl, decode_shiftWord 3#2 .hi true x⟩
  case expLo x => exact ⟨_, rfl, decode_shiftWord 3#2 .lo false x⟩
  case expadj x => exact ⟨_, rfl, decode_shiftWord 3#2 .lo true x⟩
  case load d v =>
    by_cases hd : d = .sb
    · subst hd
      refine ⟨_, encode_load_sb v, (decode_loadOtherWord (data14 v)).1.trans ?_⟩
      rw [of_decide_eq_true hencodable]
    · exact ⟨_, encode_load_of_ne v hd, decode_loadWord v hd⟩
  case move d src => exact ⟨_, rfl, decode_moveWord d src⟩
  case astatw v =>
    refine ⟨_, encode_astatw v, (decode_loadOtherWord (data14 v)).2.trans ?_⟩
    rw [of_decide_eq_true hencodable]
  case mode m ena => exact ⟨_, rfl, decode_modeWord m ena⟩
  case bias => cases hencodable

/-! ## Constants cut to 14 bits -/

/-- A load of SB keeps 5 bits of the constant, which the cut leaves (R26). -/
theorem exec_load_sb_data14 (v : Word) (s : State) :
    exec (.load .sb ((data14 v).signExtend 16)) s = exec (.load .sb v) s := by
  have hlow : ((data14 v).signExtend 16).setWidth 5 = v.setWidth 5 := by
    apply BitVec.eq_of_getLsbD_eq
    intro k hk
    rw [BitVec.getLsbD_setWidth, BitVec.getLsbD_setWidth, getLsbD_signExtend_data14 v (by omega)]
  simp only [exec, execLoad, Bank.writeDreg, hlow]

/-- A write of ASTAT reads the eight bits of the layout (R184). -/
theorem exec_astatw_data14 (v : Word) (s : State) (hlayout : ∀ k ∈ s.params.astatLayout.positions, k.val < 14) :
    exec (.astatw ((data14 v).signExtend 16)) s = exec (.astatw v) s := by
  have hbit (k : Fin 16) (hk : k ∈ s.params.astatLayout.positions) :
      ((data14 v).signExtend 16).getLsbD k = v.getLsbD k :=
    getLsbD_signExtend_data14 v (hlayout k hk)
  have hflags : astatOf s.params.astatLayout ((data14 v).signExtend 16) = astatOf s.params.astatLayout v := by
    simp only [AstatLayout.positions, List.forall_mem_cons] at hbit
    obtain ⟨haz, han, hav, hac, has, haq, hmv, hss, -⟩ := hbit
    simp only [astatOf, haz, han, hav, hac, has, haq, hmv, hss]
  simp only [exec, execAstatw, hflags]

/-- Settles O19: an encodable operation decodes to itself, and the two constants that are cut lose no bit they use. -/
theorem encodingLosesNoEffect : Obligations.EncodingLosesNoEffect := by
  intro p i w hwf hencode hlayout
  by_cases hencodable : i.encodable = true
  · obtain ⟨w', hw', hdecode⟩ := decodingAnEncodedOperation p i hwf hencodable
    rw [hencode] at hw'
    cases hw'
    exact ⟨i, hdecode, fun _ _ => rfl⟩
  · cases i
    case load d v =>
      obtain rfl : d = .sb := by
        by_contra hd
        exact hencodable (encodable_load_of_ne v hd)
      cases hencode
      exact ⟨_, (decode_loadOtherWord (data14 v)).1, fun s _ => exec_load_sb_data14 v s⟩
    case astatw v =>
      cases hencode
      refine ⟨_, (decode_loadOtherWord (data14 v)).2, fun s hs => exec_astatw_data14 v s ?_⟩
      rw [hs]
      exact hlayout
    case bias => cases hencode
    all_goals exact absurd rfl hencodable

/-! ## The loader -/

/-- A code word written out as its bits is itself. -/
theorem codeWordOf_toNat (w : CodeWord) : codeWordOf 24 w.toNat = w := by
  rw [codeWordOf, Nat.mod_eq_of_lt w.isLt, BitVec.ofNat_toNat, BitVec.setWidth_eq]

/-- The entry `placeAt` places. -/
theorem placeAt_getElem?_self (l : List Slot) (n : Nat) (x : Slot) : (placeAt l n x)[n]? = some x := by
  have hlen : (l.take n ++ List.replicate (n - l.length) x).length = n := by simp; omega
  rw [placeAt, List.append_assoc, List.getElem?_append_right (by omega), hlen]
  simp

/-- The entries `placeAt` keeps. -/
theorem placeAt_getElem?_of_ne (l : List Slot) (n k : Nat) (x : Slot) (hk : k < l.length) (hne : k ≠ n) :
    (placeAt l n x)[k]? = l[k]? := by
  obtain hlt | hgt : k < n ∨ n < k := by omega
  · have hlen : k < (l.take n).length := by simp; omega
    rw [placeAt, List.append_assoc, List.append_assoc, List.getElem?_append_left hlen, List.getElem?_take_of_lt hlt]
  · have hlen : (l.take n ++ List.replicate (n - l.length) x ++ [x]).length = n + 1 := by simp; omega
    rw [placeAt, List.getElem?_append_right (by omega), hlen, List.getElem?_drop, show n + 1 + (k - (n + 1)) = k by omega]

/-- Placing an entry that spells an operation in a program that is not refused gives one that is not refused. -/
theorem programSpells_placeAt {p : Params} {l : List Slot} {x : Slot} (n : Nat) (hl : programSpells p l = true)
    (hx : slotSpells p x = true) : programSpells p (placeAt l n x) = true := by
  rw [programSpells, List.all_eq_true] at hl ⊢
  intro y hy
  simp only [placeAt, List.mem_append, List.mem_replicate, List.mem_singleton] at hy
  obtain ((htake | ⟨-, rfl⟩) | rfl) | hdrop := hy
  · exact hl y (List.mem_of_mem_take htake)
  · exact hx
  · exact hx
  · exact hl y (List.mem_of_mem_drop hdrop)

/-- Settles O20: a word that decodes stands for an operation of every member, so it can be placed and is fetched. -/
theorem placedWordIsFetched : Obligations.PlacedWordIsFetched := by
  intro s w i hdecode
  obtain ⟨-, -, hwf⟩ := encodingADecodedWord w i hdecode
  have hprogram : (s.withFetchWord 24 w.toNat).program = placeAt s.program s.pc (.word w) := by
    rw [State.withFetchWord, codeWordOf_toNat]
  have hslot : slotSpells s.params (.word w) = true := by
    simp [slotSpells, slotRefusal, slotInstr, hdecode, hwf s.params]
  refine ⟨fun hspells => ?_, fun n hn hne => ?_, rfl⟩
  · have hspells' : programSpells s.params (s.withFetchWord 24 w.toNat).program = true := by
      rw [hprogram]
      exact programSpells_placeAt s.pc hspells hslot
    refine ⟨hspells', State.fetch_word _ w i hspells' ?_ hdecode⟩
    rw [hprogram]
    exact placeAt_getElem?_self ..
  · rw [hprogram]
    exact placeAt_getElem?_of_ne s.program s.pc n (.word w) hn hne

/-- Settles O16, by evaluation of the decoder on each word. -/
theorem sampleWordsDecode : Obligations.SampleWordsDecode := by
  unfold Obligations.SampleWordsDecode
  decide

end Sys2Proof.Claims

end

/-! # Proofs: the ALU

The nineteen standard functions differ in the output they hand to the common end (`aluOut`) and in AS; the common end is
compared with R70, R73, R75 and R76 once (`aluResult_of_aluOut`). What is left of each function is arithmetic of the
adder. -/

section

open Sys2Proof Sys2Proof.Machine

namespace Sys2Proof.Claims

/-! ## The common end of the nineteen functions -/

/-- The output of a standard ALU function before saturation (R77 to R95); 0 for an instruction that is none. -/
def aluOut (s : State) : Instr → AluOut
  | .add _ x y => add16 (s.readAxop x) (s.readAyop y) false
  | .addc _ x y => add16 (s.readAxop x) (s.readAyop y) s.astat.ac
  | .sub _ x y => add16 (s.readAxop x) (~~~ (s.readAyop y)) true
  | .subb _ x y => add16 (s.readAxop x) (~~~ (s.readAyop y)) s.astat.ac
  | .rsub _ y x => add16 (s.readAyop y) (~~~ (s.readAxop x)) true
  | .rsubb _ y x => add16 (s.readAyop y) (~~~ (s.readAxop x)) s.astat.ac
  | .negx _ x => add16 0x0000#16 (~~~ (s.readAxop x)) true
  | .negy _ y => add16 0x0000#16 (~~~ (s.readAyop y)) true
  | .inc _ y => add16 (s.readAyop y) 0x0000#16 true
  | .dec _ y => add16 (s.readAyop y) 0xFFFF#16 false
  | .passx _ x => noAdder (s.readAxop x)
  | .passy _ y => noAdder (s.readAyop y)
  | .abs _ x => if (s.readAxop x).msb then add16 0x0000#16 (~~~ (s.readAxop x)) true else noAdder (s.readAxop x)
  | .logicAnd _ x y => noAdder (s.readAxop x &&& s.readAyop y)
  | .logicOr _ x y => noAdder (s.readAxop x ||| s.readAyop y)
  | .logicXor _ x y => noAdder (s.readAxop x ^^^ s.readAyop y)
  | .notx _ x => noAdder (~~~ (s.readAxop x))
  | .noty _ y => noAdder (~~~ (s.readAyop y))
  | _ => noAdder 0x0000#16

/-- AS after a standard ALU function: only ABS writes it (R90). -/
def aluSign (s : State) : Instr → Bool
  | .abs _ x => (s.readAxop x).msb
  | _ => s.astat.as

/-- The common end writes every flag of `aluFlags`, AS among them as it stood. -/
theorem aluEnd_eq (s : State) (d : Adst) (o : AluOut) : s.aluEnd d o =
    (s.setBank (s.bank.writeAdst s.arSat d o)).setAstat { aluFlags s.avLatch o s.astat with as := s.astat.as } := rfl

/-- Every standard ALU function writes its destination and the flags from its one output (R70). -/
theorem exec_of_aluDst {i : Instr} {d : Adst} (s : State) (hdst : aluDst i = some d) :
    exec i s = .next ((s.setBank (s.bank.writeAdst s.arSat d (aluOut s i))).setAstat
      { aluFlags s.avLatch (aluOut s i) s.astat with as := aluSign s i }) := by
  cases i
  case add | addc | sub | subb | rsub | rsubb | negx | negy | inc | dec | passx | passy | pass0 | logicAnd | logicOr
      | logicXor | notx | noty =>
    cases hdst
    exact congrArg Host.Outcome.next (aluEnd_eq ..)
  case abs =>
    cases hdst
    rfl
  all_goals cases hdst

/-- The destination's value with the saturation of AR (R76). -/
theorem writeAdst_eq (b : Bank) (sat : Bool) (d : Adst) (r : Word) (c v : Bool) :
    b.writeAdst sat d ⟨r, c, v⟩ = (match d with
      | .ar => { b with ar := if sat && v then (if c then 0x8000#16 else 0x7FFF#16) else r }
      | .af => { b with af := r }) := by
  cases d <;> cases sat <;> cases v <;> rfl

/-- The flags with the latch of AV (R73, R75). -/
theorem aluFlags_eq (latch : Bool) (r : Word) (c v : Bool) (f : Astat) : aluFlags latch ⟨r, c, v⟩ f =
    { f with az := decide (r = 0), an := r.getLsbD 15, ac := c, av := v || (latch && f.av) } := by
  cases latch <;> simp [aluFlags, BitVec.msb_eq_getLsbD_last, Bool.or_comm]

/-- A standard ALU function does what R70, R73, R75 and R76 say of its output. -/
theorem aluResult_of_aluOut {s : State} {i : Instr} {d : Adst} {r : Word} {c v a : Bool} (hdst : aluDst i = some d)
    (hout : aluOut s i = ⟨r, c, v⟩) (hsign : aluSign s i = a) : AluResult s i d r c v a := by
  refine ⟨_, exec_of_aluDst s hdst, ?_, ?_, ?_⟩
  · rw [hout, State.setAstat_bank, State.setBank_bank]
    exact writeAdst_eq ..
  · rw [hout, State.setAstat_astat, aluFlags_eq, hsign]
    rfl
  · exact ⟨(State.setAstat_inactiveBank ..).trans (State.setBank_inactiveBank ..), rfl, rfl, rfl, rfl, rfl⟩

/-! ## The adder -/

/-- Settles O21: the bits of the sum as comparisons of numbers. -/
theorem adderCarryAndOverflow : Obligations.AdderCarryAndOverflow := by
  intro a b cin
  have ha := a.isLt
  have hb := b.isLt
  have hc := cin.toNat_lt
  refine ⟨rfl, ?carry, ?stages, ?signed⟩
  case carry =>
    simp only [add16, Nat.testBit_eq_decide_div_mod_eq, decide_eq_decide]
    omega
  case stages =>
    simp only [add16, Nat.testBit_eq_decide_div_mod_eq]
    congr 1
    simp only [decide_eq_decide]
    omega
  case signed =>
    simp only [add16, outside16, Nat.testBit_eq_decide_div_mod_eq, BitVec.toInt_eq_toNat_cond]
    rw [Bool.eq_iff_iff]
    simp only [bne_iff_ne, ne_eq, decide_eq_decide, decide_eq_true_eq]
    split <;> split <;> omega

/-- The adder's output: sum, unsigned carry and signed overflow. -/
theorem add16_eq (a b : Word) (cin : Bool) : add16 a b cin =
    ⟨a + b + BitVec.ofNat 16 cin.toNat, carry16 (a.toNat + b.toNat + cin.toNat),
      outside16 (a.toInt + b.toInt + cin.toNat)⟩ := by
  obtain ⟨-, hcarry, -, hovf⟩ := adderCarryAndOverflow a b cin
  rw [← add16_r, carry16, ← hcarry, ← hovf]

/-- The complement as a number. -/
theorem toNat_not_word (b : Word) : (~~~ b).toNat = 2 ^ 16 - 1 - b.toNat := BitVec.toNat_not

/-- The complement as a signed number. -/
theorem toInt_not_word (b : Word) : (~~~ b).toInt = -b.toInt - 1 := by
  have hb := b.isLt
  rw [BitVec.toInt_eq_toNat_cond, BitVec.toInt_eq_toNat_cond, toNat_not_word]
  split <;> split <;> omega

/-- The adder's output for a subtraction: difference less the borrow, no borrow as the carry, signed overflow (R72). -/
theorem add16_not (a b : Word) (cin : Bool) : add16 a (~~~ b) cin =
    ⟨a - b - BitVec.ofNat 16 (!cin).toNat, decide (b.toNat + (!cin).toNat ≤ a.toNat),
      outside16 (a.toInt - b.toInt - (!cin).toNat)⟩ := by
  have hcin : (cin.toNat : Int) = 1 - (!cin).toNat := by cases cin <;> rfl
  rw [add16_eq, toInt_not_word, toNat_not_word]
  congr 1
  · apply BitVec.eq_of_toNat_eq
    have ha := a.isLt
    have hb := b.isLt
    simp only [BitVec.toNat_add, BitVec.toNat_sub, BitVec.toNat_ofNat, toNat_not_word]
    omega
  · rw [carry16, decide_eq_decide]
    omega
  · congr 1
    omega

end Sys2Proof.Claims

end

/-! # Proofs: the ALU functions

Each function's output as the obligation names it, by the adder's two spellings `add16_eq` and `add16_not`; then the
saturation and latch modes, and the pairs of operations that work on 32 bits. -/

section

open Sys2Proof Sys2Proof.Machine

namespace Sys2Proof.Claims

/-! ## Results -/

/-- Settles O22, by the adder's output with carry in 0 and AC. -/
theorem addAndAddWithCarry : Obligations.AddAndAddWithCarry := by
  intro d x y s
  constructor
  · exact aluResult_of_aluOut rfl (by simp [aluOut, add16_eq]) rfl
  · exact aluResult_of_aluOut rfl (add16_eq ..) rfl

/-- The borrow as the complement of AC (R96). -/
theorem borrow_eq (s : State) : borrow s = (!s.astat.ac).toNat := by
  cases h : s.astat.ac <;> simp [borrow, h]

/-- Settles O23, by the adder's output with a complemented operand. -/
theorem subtractFunctions : Obligations.SubtractFunctions := by
  intro d x y s
  rw [borrow_eq]
  refine ⟨?sub, ?subb, ?rsub, ?rsubb⟩
  case sub | rsub => exact aluResult_of_aluOut rfl (by simp [aluOut, add16_not]) rfl
  case subb | rsubb => exact aluResult_of_aluOut rfl (add16_not ..) rfl

/-- The adder's output for a negation. -/
theorem add16_negate (v : Word) : add16 0x0000#16 (~~~ v) true =
    ⟨0 - v, decide (v = 0x0000#16), decide (v = 0x8000#16)⟩ := by
  have hv := v.isLt
  rw [add16_not, AluOut.mk.injEq]
  refine ⟨?_, ?_, ?_⟩
  · simp
  · rw [decide_eq_decide, ← BitVec.toNat_inj]
    simp
  · rw [outside16, decide_eq_decide, ← BitVec.toNat_inj, BitVec.toInt_eq_toNat_cond (x := v)]
    simp only [BitVec.toInt_zero, BitVec.toNat_ofNat, Bool.not_true, Bool.toNat_false]
    split <;> omega

/-- The adder's output for an increment. -/
theorem add16_increment (v : Word) : add16 v 0x0000#16 true =
    ⟨v + 1, decide (v = 0xFFFF#16), decide (v = 0x7FFF#16)⟩ := by
  have hv := v.isLt
  rw [add16_eq, AluOut.mk.injEq]
  refine ⟨?_, ?_, ?_⟩
  · simp
  · rw [carry16, decide_eq_decide, ← BitVec.toNat_inj]
    simp only [BitVec.toNat_ofNat, Bool.toNat_true]
    omega
  · rw [outside16, decide_eq_decide, ← BitVec.toNat_inj, BitVec.toInt_eq_toNat_cond (x := v)]
    simp only [BitVec.toInt_zero, BitVec.toNat_ofNat, Bool.toNat_true]
    split <;> omega

/-- The adder's output for a decrement. -/
theorem add16_decrement (v : Word) : add16 v 0xFFFF#16 false =
    ⟨v - 1, decide (v ≠ 0x0000#16), decide (v = 0x8000#16)⟩ := by
  have hv := v.isLt
  have hminus : (0xFFFF#16).toInt = -1 := rfl
  rw [add16_eq, AluOut.mk.injEq]
  refine ⟨?_, ?_, ?_⟩
  · rw [BitVec.sub_eq_add_neg]
    simp
  · rw [carry16, decide_eq_decide, ne_eq, ← BitVec.toNat_inj]
    simp only [BitVec.toNat_ofNat, Bool.toNat_false]
    omega
  · rw [outside16, decide_eq_decide, ← BitVec.toNat_inj, BitVec.toInt_eq_toNat_cond (x := v), hminus]
    simp only [BitVec.toNat_ofNat, Bool.toNat_false]
    split <;> omega

/-- Settles O24, by the adder's output for a negation, an increment and a decrement. -/
theorem negateIncrementDecrement : Obligations.NegateIncrementDecrement := by
  intro d x y s
  exact ⟨aluResult_of_aluOut rfl (add16_negate _) rfl, aluResult_of_aluOut rfl (add16_negate _) rfl,
    aluResult_of_aluOut rfl (add16_increment _) rfl, aluResult_of_aluOut rfl (add16_decrement _) rfl⟩

/-- Settles O25: the operand passes with carry and overflow 0. -/
theorem passFunctions : Obligations.PassFunctions :=
  fun _ _ _ _ => ⟨aluResult_of_aluOut rfl rfl rfl, aluResult_of_aluOut rfl rfl rfl, aluResult_of_aluOut rfl rfl rfl⟩

/-- The complement as a difference. -/
theorem not_eq_sub (v : Word) : ~~~ v = 0xFFFF#16 - v := by
  apply BitVec.eq_of_toNat_eq
  have hv := v.isLt
  rw [toNat_not_word, BitVec.toNat_sub, BitVec.toNat_ofNat]
  omega

/-- Settles O27: a bitwise function has carry and overflow 0. -/
theorem logicFunctions : Obligations.LogicFunctions := by
  intro d x y s
  refine ⟨?and, ?or, ?xor, ?notx, ?noty⟩
  case and | or | xor => exact aluResult_of_aluOut rfl rfl rfl
  case notx | noty => exact aluResult_of_aluOut rfl (congrArg noAdder (not_eq_sub _)) rfl

/-- The output of ABS: the absolute value, with the overflow of the one value that has none. -/
theorem absOut_eq (v : Word) : (if v.msb then add16 0x0000#16 (~~~ v) true else noAdder v) =
    ⟨BitVec.ofNat 16 v.toInt.natAbs, false, decide (v = 0x8000#16)⟩ := by
  have hv := v.isLt
  have hint := BitVec.toInt_eq_toNat_cond v
  by_cases hneg : 2 ^ 15 ≤ v.toNat
  · have hmsb : v.msb = true := (BitVec.msb_eq_decide v).trans (decide_eq_true hneg)
    have hzero : v ≠ 0x0000#16 := by rintro rfl; simp at hneg
    rw [if_pos hmsb, add16_negate, decide_eq_false hzero, AluOut.mk.injEq]
    refine ⟨BitVec.eq_of_toNat_eq ?_, rfl, rfl⟩
    rw [if_neg (by omega)] at hint
    have habs : v.toInt.natAbs = 2 ^ 16 - v.toNat := by omega
    change (0#16 - v).toNat = _
    rw [habs, BitVec.zero_sub, BitVec.toNat_neg, BitVec.toNat_ofNat]
  · have hmsb : ¬ v.msb = true := by rw [BitVec.msb_eq_decide]; simpa using hneg
    have hmin : v ≠ 0x8000#16 := by rintro rfl; simp at hneg
    rw [if_neg hmsb, noAdder, decide_eq_false hmin, AluOut.mk.injEq]
    refine ⟨BitVec.eq_of_toNat_eq ?_, rfl, rfl⟩
    rw [if_pos (by omega)] at hint
    rw [hint, BitVec.toNat_ofNat]
    omega

/-- Settles O26, by the output of ABS and the sign it writes into AS. -/
theorem absoluteValue : Obligations.AbsoluteValue :=
  fun _ _ _ => aluResult_of_aluOut rfl (absOut_eq _) (BitVec.msb_eq_getLsbD_last _)

/-! ## Saturation and latch -/

/-- The output depends on the active bank and the flags only. -/
theorem aluOut_congr {s t : State} (hbank : t.bank = s.bank) (hflags : t.astat = s.astat) (i : Instr) :
    aluOut t i = aluOut s i := by
  cases i <;> simp only [aluOut, readAxop_congr hbank, readAyop_congr hbank, hflags]

theorem aluSign_congr {s t : State} (hbank : t.bank = s.bank) (hflags : t.astat = s.astat) (i : Instr) :
    aluSign t i = aluSign s i := by
  cases i <;> simp only [aluSign, readAxop_congr hbank, hflags]

/-- The bits of MSTAT with the latch and saturation modes cleared. -/
theorem getLsbD_and_clearModes (m : BitVec 16) :
    (m &&& 0xFFF3#16).getLsbD 0 = m.getLsbD 0 ∧ (m &&& 0xFFF3#16).getLsbD 2 = false ∧
      (m &&& 0xFFF3#16).getLsbD 3 = false := by
  simp

/-- What the two modes add, against a state with the same registers and flags and both modes off. -/
theorem exec_with_and_without_modes {i : Instr} {d : Adst} {s s' : State} (hdst : aluDst i = some d)
    (hbank : s'.bank = s.bank) (hflags : s'.astat = s.astat) (hlatch : s'.mstat.getLsbD 2 = false)
    (hsat : s'.mstat.getLsbD 3 = false) :
    ∃ t u, exec i s' = .next t ∧ exec i s = .next u ∧
      u.bank = { t.bank with
        ar := if d = .ar ∧ s.mstat.getLsbD 3 = true ∧ t.astat.av = true then
            (if t.astat.ac then 0x8000#16 else 0x7FFF#16)
          else t.bank.ar } ∧
      u.astat = { t.astat with av := t.astat.av || (s.mstat.getLsbD 2 && s.astat.av) } ∧
      u.mstat = s.mstat := by
  rcases hout : aluOut s i with ⟨r, c, v⟩
  obtain ⟨t, ht, htbank, htflags, -⟩ :=
    aluResult_of_aluOut hdst ((aluOut_congr hbank hflags i).trans hout) (aluSign_congr hbank hflags i)
  obtain ⟨u, hu, hubank, huflags, -, humstat, -⟩ := aluResult_of_aluOut hdst hout rfl
  refine ⟨t, u, ht, hu, ?_, ?_, humstat⟩
  · rw [hubank, htbank, htflags, hbank, hsat, hlatch]
    generalize s.mstat.getLsbD 3 = sat
    cases d with
    | af => rfl
    | ar => cases sat <;> cases v <;> rfl
  · rw [huflags, htflags, hflags, hlatch, Bool.false_and, Bool.or_false]

/-- Settles O28: with the modes off the same output is written as it is. -/
theorem saturationAndLatchModes : Obligations.SaturationAndLatchModes := by
  intro i d s hdst
  obtain ⟨hsec, hlatch, hsat⟩ := getLsbD_and_clearModes s.mstat
  exact exec_with_and_without_modes hdst (bank_congr rfl rfl hsec) rfl hlatch hsat

/-- A saturated adder output is the exact signed sum clamped to 16 bits (R76). -/
theorem toInt_saturateAr_add16 (a b : Word) (cin : Bool) :
    (saturateAr (add16 a b cin)).toInt = clamp16 (a.toInt + b.toInt + cin.toNat) := by
  have ha := a.isLt
  have hb := b.isLt
  have hc := cin.toNat_lt
  have hmin : (0x8000#16).toInt = -2 ^ 15 := rfl
  have hmax : (0x7FFF#16).toInt = 2 ^ 15 - 1 := rfl
  have hr : (a + b + BitVec.ofNat 16 cin.toNat).toNat = (a.toNat + b.toNat + cin.toNat) % 2 ^ 16 := by
    rw [← add16_r]
    exact BitVec.toNat_ofNat ..
  have haint := BitVec.toInt_eq_toNat_cond a
  have hbint := BitVec.toInt_eq_toNat_cond b
  simp only [add16_eq, saturateAr, outside16, carry16, clamp16, decide_eq_true_eq]
  by_cases hovf : a.toInt + b.toInt + cin.toNat < -2 ^ 15 ∨ 2 ^ 15 ≤ a.toInt + b.toInt + cin.toNat
  · rw [if_pos hovf]
    by_cases hcarry : 2 ^ 16 ≤ a.toNat + b.toNat + cin.toNat
    · rw [if_pos hcarry, hmin]
      omega
    · rw [if_neg hcarry, hmax]
      omega
  · rw [if_neg hovf, BitVec.toInt_eq_toNat_cond, hr]
    split <;> omega

/-- A result that needs no saturation is not clamped. -/
theorem toInt_eq_clamp16 (v : Word) : v.toInt = clamp16 v.toInt := by
  have hlt := BitVec.toInt_lt (x := v)
  have hle := BitVec.le_toInt v
  simp only [clamp16]
  omega

/-- The saturated output of ABS is the clamped absolute value. -/
theorem toInt_saturateAr_absOut (v : Word) :
    (saturateAr (if v.msb then add16 0x0000#16 (~~~ v) true else noAdder v)).toInt = clamp16 v.toInt.natAbs := by
  cases hmsb : v.msb with
  | true =>
    have hneg : v.toInt < 0 := BitVec.toInt_neg_of_msb_true hmsb
    rw [if_pos rfl, toInt_saturateAr_add16, toInt_not_word]
    congr 1
    simp only [BitVec.toInt_zero, Bool.toNat_true]
    omega
  | false =>
    have hpos : 0 ≤ v.toInt := BitVec.toInt_nonneg_of_msb_false hmsb
    rw [if_neg Bool.false_ne_true, Int.natAbs_of_nonneg hpos]
    exact toInt_eq_clamp16 v

/-- With MSTAT[3] set an operation with destination AR leaves its saturated output there (R76). -/
theorem exec_ar_of_saturating {s : State} {i : Instr} {z : Int} (hdst : aluDst i = some .ar)
    (hmode : s.mstat.getLsbD 3 = true) (hz : (saturateAr (aluOut s i)).toInt = clamp16 z) :
    ∃ t, exec i s = .next t ∧ t.bank.ar.toInt = clamp16 z := by
  refine ⟨_, exec_of_aluDst s hdst, ?_⟩
  rw [State.setAstat_bank, State.setBank_bank, State.arSat, hmode, ← hz]
  rfl

/-- Settles O29: each of the eleven functions is one adder pass, whose saturated output is the clamped exact sum. -/
theorem saturationClampsTheExactResult : Obligations.SaturationClampsTheExactResult := by
  intro x y s hmode i z hmem
  rw [borrow_eq] at hmem
  simp only [List.mem_cons, Prod.mk.injEq, List.not_mem_nil, or_false] at hmem
  have hac : (s.astat.ac.toNat : Int) = 1 - (!s.astat.ac).toNat := by cases s.astat.ac <;> rfl
  have hminus : (0xFFFF#16).toInt = -1 := rfl
  obtain ⟨rfl, rfl⟩ | ⟨rfl, rfl⟩ | ⟨rfl, rfl⟩ | ⟨rfl, rfl⟩ | ⟨rfl, rfl⟩ | ⟨rfl, rfl⟩ | ⟨rfl, rfl⟩ | ⟨rfl, rfl⟩ |
    ⟨rfl, rfl⟩ | ⟨rfl, rfl⟩ | ⟨rfl, rfl⟩ := hmem
  case inr.inr.inr.inr.inr.inr.inr.inr.inr.inr =>
    exact exec_ar_of_saturating rfl hmode (toInt_saturateAr_absOut _)
  all_goals
    refine exec_ar_of_saturating rfl hmode ((toInt_saturateAr_add16 _ _ _).trans (congrArg clamp16 ?_))
    simp only [toInt_not_word, BitVec.toInt_zero, hac, hminus, Bool.toNat_true, Bool.toNat_false] <;> omega

/-! ## Operations on 32 bits -/

/-- Without saturation the destination takes the output, and AC its carry. -/
theorem adstValue_of_aluResult {s : State} {i : Instr} {d : Adst} {r : Word} {c v a : Bool}
    (hres : AluResult s i d r c v a) (hsat : s.mstat.getLsbD 3 = false ∨ d = .af) :
    ∃ t, exec i s = .next t ∧ adstValue t d = r ∧ t.astat.ac = c ∧ t.mstat = s.mstat := by
  obtain ⟨t, ht, hbank, hflags, -, hmstat, -⟩ := hres
  refine ⟨t, ht, ?_, by rw [hflags], hmstat⟩
  cases d with
  | af => rw [adstValue, hbank]
  | ar =>
    obtain hsat | hsat := hsat
    · rw [adstValue, hbank, hsat]
      rfl
    · cases hsat

/-- Low and high sums, with the carry of the low one, are a 32-bit sum and its carry (R96). -/
theorem add_halves (xl xh yl yh : Word) :
    ((xh + yh + BitVec.ofNat 16 (carry16 (xl.toNat + yl.toNat)).toNat) ++ (xl + yl) : BitVec 32) =
        ((xh ++ xl) + (yh ++ yl) : BitVec 32) ∧
      carry16 (xh.toNat + yh.toNat + (carry16 (xl.toNat + yl.toNat)).toNat) =
        decide (2 ^ 32 ≤ (xh ++ xl).toNat + (yh ++ yl).toNat) := by
  have hxl := xl.isLt
  have hyl := yl.isLt
  have hc : (carry16 (xl.toNat + yl.toNat)).toNat = (xl.toNat + yl.toNat) / 2 ^ 16 := by
    rw [carry16]
    by_cases h : 2 ^ 16 ≤ xl.toNat + yl.toNat
    · rw [decide_eq_true h, Bool.toNat_true]; omega
    · rw [decide_eq_false h, Bool.toNat_false]; omega
  rw [hc]
  constructor
  · apply BitVec.eq_of_toNat_eq
    rw [toNat_append_eq_add]
    simp only [BitVec.toNat_add, BitVec.toNat_ofNat, toNat_append_eq_add]
    omega
  · rw [carry16, toNat_append_eq_add, toNat_append_eq_add, decide_eq_decide]
    omega

/-- Low and high differences, with the borrow of the low one, are a 32-bit difference and its borrow (R96). -/
theorem sub_halves (xl xh yl yh : Word) :
    ((xh - yh - BitVec.ofNat 16 (!decide (yl.toNat ≤ xl.toNat)).toNat) ++ (xl - yl) : BitVec 32) =
        ((xh ++ xl) - (yh ++ yl) : BitVec 32) ∧
      decide (yh.toNat + (!decide (yl.toNat ≤ xl.toNat)).toNat ≤ xh.toNat) =
        decide ((yh ++ yl).toNat ≤ (xh ++ xl).toNat) := by
  have hxl := xl.isLt
  have hyl := yl.isLt
  have hxh := xh.isLt
  have hyh := yh.isLt
  by_cases h : yl.toNat ≤ xl.toNat
  · rw [decide_eq_true h]
    constructor
    · apply BitVec.eq_of_toNat_eq
      rw [toNat_append_eq_add]
      simp only [BitVec.toNat_sub, BitVec.toNat_ofNat, toNat_append_eq_add, Bool.not_true, Bool.toNat_false]
      omega
    · rw [toNat_append_eq_add, toNat_append_eq_add, decide_eq_decide, Bool.not_true, Bool.toNat_false]
      omega
  · rw [decide_eq_false h]
    constructor
    · apply BitVec.eq_of_toNat_eq
      rw [toNat_append_eq_add]
      simp only [BitVec.toNat_sub, BitVec.toNat_ofNat, toNat_append_eq_add, Bool.not_false, Bool.toNat_true]
      omega
    · rw [toNat_append_eq_add, toNat_append_eq_add, decide_eq_decide, Bool.not_false, Bool.toNat_true]
      omega

/-- Settles O30: the second operation takes AC of the first as its carry in, which joins the halves. -/
theorem multiprecisionAddAndSubtract : Obligations.MultiprecisionAddAndSubtract := by
  intro d xl xh yl yh s hsat
  constructor
  · obtain ⟨t, ht, hlow, hac, hmstat⟩ := adstValue_of_aluResult (addAndAddWithCarry d xl yl s).1 hsat
    obtain ⟨u, hu, hhigh, hcarry, -⟩ := adstValue_of_aluResult (addAndAddWithCarry d xh yh t).2 (hmstat ▸ hsat)
    rw [hac] at hhigh hcarry
    obtain ⟨hsum, hout⟩ := add_halves (s.readAxop xl) (t.readAxop xh) (s.readAyop yl) (t.readAyop yh)
    exact ⟨t, u, ht, hu, by rw [hlow, hhigh, hsum], hcarry.trans hout⟩
  · obtain ⟨t, ht, hlow, hac, hmstat⟩ := adstValue_of_aluResult (subtractFunctions d xl yl s).1 hsat
    obtain ⟨u, hu, hhigh, hcarry, -⟩ := adstValue_of_aluResult (subtractFunctions d xh yh t).2.1 (hmstat ▸ hsat)
    rw [borrow_eq, hac] at hhigh hcarry
    obtain ⟨hdiff, hout⟩ := sub_halves (s.readAxop xl) (t.readAxop xh) (s.readAyop yl) (t.readAyop yh)
    exact ⟨t, u, ht, hu, by rw [hlow, hhigh, hdiff], hcarry.trans hout⟩

end Sys2Proof.Claims

end

/-! # Proofs: division

DIVS and DIVQ end in one shift of the pair AF, AY0 (`State.divShift`), first as 32 bits (R110, R111). For the quotients the
steps are compared with the schoolbook division by twice the divisor's magnitude `w`: AF holds the remainder, less `2w`
after a step that went below 0 (`HoldsRemainder`), and each DIVQ brings in one bit of the dividend and yields one bit of
the quotient (`divq_step`). A negative divisor inverts AQ and with it every bit of the quotient. -/

section

open Sys2Proof Sys2Proof.Machine

namespace Sys2Proof.Claims

/-! ## One shift -/

/-- The upper half of the shifted pair, as a number. -/
theorem toNat_shiftedHigh (r a : Word) :
    (r.extractLsb' 0 15 ++ a.extractLsb' 15 1 : Word).toNat = r.toNat % 2 ^ 15 * 2 + a.toNat / 2 ^ 15 := by
  have ha := a.isLt
  rw [toNat_append_eq_add, BitVec.extractLsb'_toNat, BitVec.extractLsb'_toNat, Nat.shiftRight_eq_div_pow,
    Nat.shiftRight_eq_div_pow]
  omega

/-- The lower half of the shifted pair, as a number. -/
theorem toNat_shiftedLow (a : Word) (q : Bool) :
    (a.extractLsb' 0 15 ++ BitVec.ofBool q : Word).toNat = a.toNat % 2 ^ 15 * 2 + q.toNat := by
  rw [toNat_append_eq_add, BitVec.extractLsb'_toNat, BitVec.toNat_ofBool, Nat.shiftRight_eq_div_pow]
  omega

/-- The two halves are the pair shifted left one place, with the new bit at place 0. -/
theorem shifted_pair (r a : Word) (q : Bool) :
    ((r.extractLsb' 0 15 ++ a.extractLsb' 15 1 : Word) ++ (a.extractLsb' 0 15 ++ BitVec.ofBool q : Word) : BitVec 32) =
      ((r ++ a) <<< 1) + (if q then 1 else 0) := by
  have hr := r.isLt
  have ha := a.isLt
  have hq : (if q then 1 else 0 : BitVec 32).toNat = q.toNat := by cases q <;> rfl
  have hq1 := q.toNat_lt
  apply BitVec.eq_of_toNat_eq
  rw [toNat_append_eq_add, toNat_shiftedHigh, toNat_shiftedLow, BitVec.toNat_add, hq, BitVec.toNat_shiftLeft,
    Nat.shiftLeft_eq, toNat_append_eq_add]
  omega

/-- A divide primitive changes nothing outside the active bank and AQ. -/
theorem keepsRest_divShift (s : State) (r : Word) (q0 aq : Bool) : KeepsRest s (s.divShift r q0 aq) :=
  ⟨State.divShift_inactiveBank s r q0 aq, rfl, rfl, rfl, rfl, rfl⟩

/-- The divide primitives write AF, AY0 and AQ only. -/
theorem divShift_frame (s : State) (r : Word) (q0 aq : Bool) :
    (s.divShift r q0 aq).bank =
        { s.bank with af := (s.divShift r q0 aq).bank.af, ay0 := (s.divShift r q0 aq).bank.ay0 } ∧
      (s.divShift r q0 aq).astat = { s.astat with aq := (s.divShift r q0 aq).astat.aq } ∧
      KeepsRest s (s.divShift r q0 aq) := by
  rw [State.divShift_bank]
  exact ⟨rfl, rfl, keepsRest_divShift s r q0 aq⟩

/-- The exclusive OR of two signs, as the comparison the obligations write. -/
theorem xor_msb_eq (v r : Word) : xor v.msb r.msb = decide (v.toInt < 0 ↔ ¬ r.toInt < 0) := by
  rw [BitVec.msb_eq_toInt, BitVec.msb_eq_toInt, Bool.eq_iff_iff]
  by_cases hv : v.toInt < 0 <;> by_cases hr : r.toInt < 0 <;> simp [hv, hr]

/-- DIVS of an operand that can hold the upper word: the shift, with the exclusive OR of the signs as both bits (R110). -/
theorem exec_divs_eq (y : Ayop) (x : Axop) (s : State) (hy : y ≠ .ay0) : exec (.divs y x) s =
    .next (s.divShift (s.readAyop y) (xor (s.readAxop x).msb (s.readAyop y).msb)
      (xor (s.readAxop x).msb (s.readAyop y).msb)) := by
  cases y with
  | ay0 => exact absurd rfl hy
  | ay1 | af => rfl

/-- The sum or difference that DIVQ tests (R111). -/
def divqResult (x : Axop) (s : State) : Word :=
  if s.astat.aq then s.bank.af + s.readAxop x else s.bank.af - s.readAxop x

/-- DIVQ: the shift of its sum or difference, with the exclusive OR of the signs into AQ and its inverse into AY0
(R111). -/
theorem exec_divq_eq (x : Axop) (s : State) : exec (.divq x) s =
    .next (s.divShift (divqResult x s) (!xor (s.readAxop x).msb (divqResult x s).msb)
      (xor (s.readAxop x).msb (divqResult x s).msb)) := rfl

/-- Settles O31: the shift of the upper word with AY0, by the exclusive OR of the signs. -/
theorem divideSign : Obligations.DivideSign := by
  intro y x s hy
  refine ⟨_, exec_divs_eq y x s hy, ?_, ?_, divShift_frame ..⟩
  · exact xor_msb_eq ..
  · rw [State.divShift_bank]
    exact shifted_pair ..

/-- The sum or difference as an integer modulo 2^16. -/
theorem divqResult_eq_ofInt (x : Axop) (s : State) : divqResult x s =
    BitVec.ofInt 16 (s.bank.af.toInt + (if s.astat.aq then 1 else -1) * (s.readAxop x).toInt) := by
  cases haq : s.astat.aq with
  | true => simp [divqResult, haq, BitVec.ofInt_add]
  | false => simp [divqResult, haq, BitVec.ofInt_add, BitVec.ofInt_neg, BitVec.sub_eq_add_neg]

/-- Settles O32: the shift of the sum or difference with AY0, by the inverse of the new AQ. -/
theorem divideQuotientBit : Obligations.DivideQuotientBit := by
  intro x s
  refine ⟨_, exec_divq_eq x s, ?_, divShift_frame ..⟩
  rw [← divqResult_eq_ofInt]
  constructor
  · exact xor_msb_eq ..
  · rw [State.divShift_bank, State.divShift_astat]
    refine (shifted_pair ..).trans ?_
    cases xor (s.readAxop x).msb (divqResult x s).msb <;> rfl

/-! ## One bit of the quotient -/

/-- The divisor is no register that a divide primitive writes. -/
theorem readAxop_divShift (s : State) (r : Word) (q0 aq : Bool) (x : Axop) :
    (s.divShift r q0 aq).readAxop x = s.readAxop x := by
  cases x <;> simp only [State.readAxop, State.divShift_bank, Bank.mr2Bus]

/-- AF holds the remainder `rem` of a division by `2w`, `w` the magnitude of the divisor; `2w` less where AQ says that
the last step went below 0, which a negative divisor says by AQ = 0. -/
def HoldsRemainder (x : Axop) (w rem : Nat) (s : State) : Prop :=
  rem < 2 * w ∧ s.bank.af = BitVec.ofInt 16 (rem - if s.astat.aq = (s.readAxop x).msb then 0 else 2 * w)

/-- A divisor by its sign and magnitude. -/
theorem eq_ofInt_sign_mul (v : Word) : v = BitVec.ofInt 16 (if v.msb then -v.toInt.natAbs else v.toInt.natAbs) := by
  have h : (if v.msb then -v.toInt.natAbs else v.toInt.natAbs : Int) = v.toInt := by
    rw [BitVec.msb_eq_toInt]
    simp only [decide_eq_true_eq]
    split <;> omega
  rw [h, BitVec.ofInt_toInt]

theorem ofInt_sub_ofInt (a b : Int) : (BitVec.ofInt 16 a - BitVec.ofInt 16 b : Word) = BitVec.ofInt 16 (a - b) := by
  rw [BitVec.sub_eq_add_neg, ← BitVec.ofInt_neg, ← BitVec.ofInt_add, Int.sub_eq_add_neg]

/-- Whatever the signs, DIVQ tests the remainder less the magnitude of the divisor. -/
theorem divqResult_of_holdsRemainder {x : Axop} {w rem : Nat} {s : State} (hw : (s.readAxop x).toInt.natAbs = w)
    (h : HoldsRemainder x w rem s) : divqResult x s = BitVec.ofInt 16 (rem - w) := by
  obtain ⟨-, haf⟩ := h
  have hv := eq_ofInt_sign_mul (s.readAxop x)
  rw [hw] at hv
  rw [divqResult, haf]
  generalize (s.readAxop x).msb = sign at hv
  rw [hv]
  cases s.astat.aq <;> cases sign
  all_goals
    simp only [if_true, if_false, reduceCtorEq, ofInt_sub_ofInt, ← BitVec.ofInt_add]
    exact congrArg _ (by omega)

/-- A shifted sum that is known as an integer. -/
theorem shiftedHigh_ofInt (z : Int) (a : Word) :
    ((BitVec.ofInt 16 z).extractLsb' 0 15 ++ a.extractLsb' 15 1 : Word) = BitVec.ofInt 16 (2 * z + a.toNat / 2 ^ 15) := by
  have ha := a.isLt
  apply BitVec.eq_of_toNat_eq
  rw [toNat_shiftedHigh, BitVec.toNat_ofInt, BitVec.toNat_ofInt]
  omega

/-- The bit of the quotient that a test of `rem` against `w` yields. -/
def quotientBit (w rem : Nat) : Nat := if w ≤ rem then 1 else 0

/-- The sign of the tested value. -/
theorem msb_of_test {w rem : Nat} {r : Word} (hmax : w ≤ 2 ^ 15) (hrem : rem < 2 * w) (hr : r = BitVec.ofInt 16 (rem - w)) :
    r.msb = decide (rem < w) := by
  have hrint : r.toInt = rem - w := by
    rw [hr, BitVec.toInt_ofInt]
    exact Int.bmod_eq_of_le (by omega) (by omega)
  rw [BitVec.msb_eq_toInt, hrint, decide_eq_decide]
  omega

/-- One shift after the test of `rem` against `w`: with the bit brought in from AY0 the new remainder is that of the
doubled value, less `2w` where the bit of the quotient is 1. -/
theorem holdsRemainder_divShift {x : Axop} {w rem : Nat} {s : State} {r : Word} {q0 aq : Bool} (hmax : w ≤ 2 ^ 15)
    (hrem : rem < 2 * w) (hr : r = BitVec.ofInt 16 (rem - w)) (haq : aq = xor (s.readAxop x).msb r.msb) :
    ∃ rem' : Nat, HoldsRemainder x w rem' (s.divShift r q0 aq) ∧
      (rem' * 2 ^ 16 + (s.divShift r q0 aq).bank.ay0.toNat : Int) =
        2 * (rem * 2 ^ 16 + s.bank.ay0.toNat) - 2 * w * 2 ^ 16 * quotientBit w rem + q0.toNat := by
  have hmsb := msb_of_test hmax hrem hr
  have ha := s.bank.ay0.isLt
  have hay0 : (s.divShift r q0 aq).bank.ay0.toNat = s.bank.ay0.toNat % 2 ^ 15 * 2 + q0.toNat := by
    rw [State.divShift_bank]
    exact toNat_shiftedLow ..
  have haf : (s.divShift r q0 aq).bank.af = BitVec.ofInt 16 (2 * (rem - w) + s.bank.ay0.toNat / 2 ^ 15) := by
    rw [State.divShift_bank, hr]
    exact shiftedHigh_ofInt ..
  unfold HoldsRemainder quotientBit
  rw [hay0, haf, State.divShift_astat, readAxop_divShift, haq, hmsb]
  by_cases hbit : w ≤ rem
  · refine ⟨2 * rem + s.bank.ay0.toNat / 2 ^ 15 - 2 * w, ⟨by omega, ?_⟩, ?_⟩
    · rw [decide_eq_false (by omega), Bool.xor_false, if_pos rfl]
      congr 1
      omega
    · rw [if_pos hbit]
      omega
  · refine ⟨2 * rem + s.bank.ay0.toNat / 2 ^ 15, ⟨by omega, ?_⟩, ?_⟩
    · rw [decide_eq_true (by omega), Bool.xor_true, if_neg (by simp)]
      congr 1
      omega
    · rw [if_neg hbit]
      omega

/-- A bit of the quotient, inverted for a negative divisor. -/
def signedBit (sign : Bool) (b : Nat) : Nat := if sign then 1 - b else b

theorem quotientBit_cases (w rem : Nat) : quotientBit w rem = 0 ∨ quotientBit w rem = 1 := by
  unfold quotientBit
  split
  · exact .inr rfl
  · exact .inl rfl

/-- DIVQ brings in one bit of the dividend and yields one bit of the quotient. -/
theorem divq_step {x : Axop} {w rem : Nat} {s : State} (hw : (s.readAxop x).toInt.natAbs = w) (hmax : w ≤ 2 ^ 15)
    (h : HoldsRemainder x w rem s) :
    ∃ (t : State) (rem' : Nat), exec (.divq x) s = .next t ∧ t.readAxop x = s.readAxop x ∧ HoldsRemainder x w rem' t ∧
      (rem' * 2 ^ 16 + t.bank.ay0.toNat : Int) = 2 * (rem * 2 ^ 16 + s.bank.ay0.toNat) -
        2 * w * 2 ^ 16 * quotientBit w rem + signedBit (s.readAxop x).msb (quotientBit w rem) := by
  have hr := divqResult_of_holdsRemainder hw h
  have hmsb := msb_of_test hmax h.1 hr
  obtain ⟨rem', hrem', hvalue⟩ := holdsRemainder_divShift (x := x) (s := s)
    (q0 := !xor (s.readAxop x).msb (divqResult x s).msb) hmax h.1 hr rfl
  refine ⟨_, rem', exec_divq_eq x s, readAxop_divShift .., hrem', hvalue.trans ?_⟩
  congr 2
  unfold signedBit quotientBit
  rw [hmsb]
  by_cases hbit : w ≤ rem
  · rw [if_pos hbit, decide_eq_false (by omega)]
    cases (s.readAxop x).msb <;> rfl
  · rw [if_neg hbit, decide_eq_true (by omega)]
    cases (s.readAxop x).msb <;> rfl

/-- `n` bits of a quotient as a number, each bit inverted for a negative divisor. -/
def signedBits (sign : Bool) (n : Nat) (q : Int) : Int := if sign then 2 ^ n - 1 - q else q

/-- `n` times DIVQ divide the remainder and the upper `n` bits of AY0 by `2w`, the quotient entering AY0 from below. -/
theorem execTimes_divq {x : Axop} {w : Nat} (hmax : w ≤ 2 ^ 15) (n : Nat) {s : State} {rem : Nat}
    (hw : (s.readAxop x).toInt.natAbs = w) (h : HoldsRemainder x w rem s) :
    ∃ (t : State) (rem' q : Nat), execTimes (.divq x) n s = some t ∧ rem' < 2 * w ∧ q < 2 ^ n ∧
      (rem' * 2 ^ 16 + t.bank.ay0.toNat : Int) = 2 ^ n * (rem * 2 ^ 16 + s.bank.ay0.toNat) -
        2 * w * 2 ^ 16 * q + signedBits (s.readAxop x).msb n q := by
  induction n generalizing s rem with
  | zero =>
    refine ⟨s, rem, 0, rfl, h.1, Nat.one_pos, ?_⟩
    cases (s.readAxop x).msb <;> simp [signedBits]
  | succ n ih =>
    obtain ⟨t, rem₁, ht, hread, hrem₁, hvalue₁⟩ := divq_step hw hmax h
    obtain ⟨u, rem', q, hu, hrem', hq, hvalue⟩ := ih (hread ▸ hw) hrem₁
    rw [hread, hvalue₁] at hvalue
    refine ⟨u, rem', quotientBit w rem * 2 ^ n + q, ?_, hrem', ?_, hvalue.trans ?_⟩
    · rw [execTimes, ht]
      exact hu
    · obtain hbit | hbit := quotientBit_cases w rem <;> rw [hbit] <;> omega
    · unfold signedBits signedBit
      obtain hbit | hbit := quotientBit_cases w rem <;> rw [hbit] <;> cases (s.readAxop x).msb <;> simp <;> ring

/-! ## Quotients -/

/-- Two quotients with remainders in range are the same. -/
theorem quotient_unique {d a b r : Int} (hr : 0 ≤ r) (hlt : r < d) (hlo : d * a ≤ d * b + r)
    (hhi : d * b + r < d * (a + 1)) : a = b := by
  have hd : 0 < d := by omega
  have hab : a < b + 1 := lt_of_mul_lt_mul_left (by rw [mul_add]; omega) hd.le
  have hba : b < a + 1 := lt_of_mul_lt_mul_left (by omega) hd.le
  omega

/-- Before the first DIVQ of an unsigned division AF holds the remainder itself. -/
theorem holdsRemainder_of_unsigned {x : Axop} {s : State} (haq : s.astat.aq = false)
    (hmax : (s.readAxop x).toNat < 2 ^ 15) (hfits : s.bank.af.toNat < 2 * (s.readAxop x).toNat) :
    HoldsRemainder x (s.readAxop x).toNat s.bank.af.toNat s := by
  have hmsb : (s.readAxop x).msb = false := by
    rw [BitVec.msb_eq_decide, decide_eq_false]
    omega
  refine ⟨hfits, ?_⟩
  rw [haq, hmsb, if_pos rfl]
  simp

/-- Settles O33: sixteen steps bring in all of AY0, so that it holds the quotient. -/
theorem unsignedDivisionQuotient : Obligations.UnsignedDivisionQuotient := by
  intro x s haq hpos hmax hfits
  have hay0 := s.bank.ay0.isLt
  rw [toNat_append_eq_add] at hfits ⊢
  have hint : (s.readAxop x).toInt = (s.readAxop x).toNat := by
    rw [BitVec.toInt_eq_toNat_cond, if_pos (by omega)]
  have hmsb : (s.readAxop x).msb = false := by
    rw [BitVec.msb_eq_toInt, decide_eq_false]
    omega
  obtain ⟨t, rem', q, ht, hrem', hq, hvalue⟩ := execTimes_divq (w := (s.readAxop x).toNat) (by omega) 16 (by omega)
    (holdsRemainder_of_unsigned haq hmax (by omega))
  refine ⟨t, ht, ?_⟩
  have hlt := t.bank.ay0.isLt
  rw [hmsb, signedBits, if_neg Bool.false_ne_true] at hvalue
  generalize (s.readAxop x).toNat = w at *
  generalize hproduct : (2 * w * q : Int) = p
  have hplaced : (2 * w * 2 ^ 16 * q : Int) = 2 ^ 16 * p := by rw [← hproduct]; ring
  rw [hplaced] at hvalue
  have hquotient : t.bank.ay0.toNat = q := by omega
  have hdividend : s.bank.af.toNat * 2 ^ 16 + s.bank.ay0.toNat = 2 * w * q + rem' := by
    zify
    omega
  rw [hquotient, hdividend, Nat.mul_add_div (by omega), Nat.div_eq_of_lt hrem', Nat.add_zero]

/-- DIVS takes the first bit of the dividend, offset by `2w * 2^15`, and yields its quotient's first bit inverted. -/
theorem divs_step {y : Ayop} {x : Axop} {w : Nat} {s : State} (hy : y ≠ .ay0) (hmax : w ≤ 2 ^ 15) (hlo : -w ≤ (s.readAyop y).toInt)
    (hhi : (s.readAyop y).toInt < w) :
    ∃ (t : State) (rem b : Nat), exec (.divs y x) s = .next t ∧ t.readAxop x = s.readAxop x ∧
      HoldsRemainder x w rem t ∧ b ≤ 1 ∧
      (rem * 2 ^ 16 + t.bank.ay0.toNat : Int) =
        2 * (((s.readAyop y).toInt + w) * 2 ^ 16 + s.bank.ay0.toNat) - 2 * w * 2 ^ 16 * b +
          signedBit (s.readAxop x).msb (1 - b) := by
  obtain ⟨rem₀, hrem₀⟩ : ∃ n : Nat, (s.readAyop y).toInt + w = n := ⟨((s.readAyop y).toInt + w).toNat, by omega⟩
  have hr : s.readAyop y = BitVec.ofInt 16 (rem₀ - w) := by
    rw [← hrem₀, Int.add_sub_cancel, BitVec.ofInt_toInt]
  have hmsb := msb_of_test hmax (by omega) hr
  obtain ⟨rem, hrem, hvalue⟩ := holdsRemainder_divShift (x := x) (s := s)
    (q0 := xor (s.readAxop x).msb (s.readAyop y).msb) hmax (by omega) hr rfl
  refine ⟨_, rem, quotientBit w rem₀, exec_divs_eq y x s hy, readAxop_divShift .., hrem, ?_, ?_⟩
  · obtain hbit | hbit := quotientBit_cases w rem₀ <;> omega
  · rw [hvalue, hrem₀]
    congr 2
    unfold signedBit quotientBit
    rw [hmsb]
    by_cases hbit : w ≤ rem₀
    · rw [if_pos hbit, decide_eq_false (by omega)]
      cases (s.readAxop x).msb <;> rfl
    · rw [if_neg hbit, decide_eq_true (by omega)]
      cases (s.readAxop x).msb <;> rfl

/-- A signed value from its halves. -/
theorem toInt_append_word (hi lo : Word) : (hi ++ lo : BitVec 32).toInt = hi.toInt * 2 ^ 16 + lo.toNat := by
  rw [BitVec.toInt_append, if_neg (by decide), Int.mul_comm]

/-- DIVS and fifteen DIVQ leave the quotient by twice the divisor's magnitude, complemented for a negative divisor. -/
theorem exec_divs_divq {y : Ayop} {x : Axop} {w : Nat} {s : State} {q : Int} (hy : y ≠ .ay0)
    (hw : (s.readAxop x).toInt.natAbs = w) (hmin : -2 ^ 15 ≤ q) (hmax : q < 2 ^ 15)
    (hlo : 2 * w * q ≤ (s.readAyop y ++ s.bank.ay0).toInt)
    (hhi : (s.readAyop y ++ s.bank.ay0).toInt < 2 * w * (q + 1)) :
    ∃ t u, exec (.divs y x) s = .next t ∧ execTimes (.divq x) 15 t = some u ∧
      u.bank.ay0.toInt = if (s.readAxop x).msb then -1 - q else q := by
  have hw15 : w ≤ 2 ^ 15 := by
    have := BitVec.le_toInt (s.readAxop x)
    have := BitVec.toInt_lt (x := s.readAxop x)
    omega
  have hay0 := s.bank.ay0.isLt
  rw [toInt_append_word] at hlo hhi
  have hlow : 2 * w * -2 ^ 15 ≤ 2 * (w : Int) * q := Int.mul_le_mul_of_nonneg_left hmin (by omega)
  have hhigh : 2 * (w : Int) * (q + 1) ≤ 2 * w * 2 ^ 15 := Int.mul_le_mul_of_nonneg_left (by omega) (by omega)
  obtain ⟨t, rem₁, b, ht, hread, hrem₁, hb, hvalue₁⟩ := divs_step (s := s) (x := x) hy hw15 (by omega) (by omega)
  obtain ⟨u, rem, q₁, hu, hrem, hq₁, hvalue⟩ := execTimes_divq hw15 15 (hread ▸ hw) hrem₁
  refine ⟨t, u, ht, hu, ?_⟩
  have hlt := u.bank.ay0.isLt
  rw [hread, hvalue₁] at hvalue
  have hplaced : (rem * 2 ^ 16 + u.bank.ay0.toNat : Int) =
      2 ^ 16 * (((s.readAyop y).toInt + w) * 2 ^ 16 + s.bank.ay0.toNat - 2 * w * (2 ^ 15 * b + q₁)) +
        (2 ^ 15 * signedBit (s.readAxop x).msb (1 - b) + signedBits (s.readAxop x).msb 15 q₁) := by
    rw [hvalue]
    ring
  have hsplit : 2 * (w : Int) * (q + 2 ^ 15) = 2 * w * q + w * 2 ^ 16 := by ring
  have hsplit' : 2 * (w : Int) * (q + 2 ^ 15 + 1) = 2 * w * (q + 1) + w * 2 ^ 16 := by ring
  have hint := BitVec.toInt_eq_toNat_cond u.bank.ay0
  generalize hproduct : 2 * (w : Int) * (2 ^ 15 * b + q₁) = p at hplaced
  unfold signedBit signedBits at hplaced
  cases hsign : (s.readAxop x).msb with
  | false =>
    rw [hsign, if_neg Bool.false_ne_true, if_neg Bool.false_ne_true] at hplaced
    have hq : q + 2 ^ 15 = 2 ^ 15 * b + q₁ := quotient_unique (d := 2 * w) (r := rem) (by omega) (by omega)
      (by rw [hproduct]; omega) (by rw [hproduct]; omega)
    rw [if_neg Bool.false_ne_true, hint]
    split <;> omega
  | true =>
    rw [hsign, if_pos rfl, if_pos rfl] at hplaced
    have hq : q + 2 ^ 15 = 2 ^ 15 * b + q₁ := quotient_unique (d := 2 * w) (r := rem) (by omega) (by omega)
      (by rw [hproduct]; omega) (by rw [hproduct]; omega)
    rw [if_pos rfl, hint]
    split <;> omega

/-- Settles O34: for a negative divisor the quotient is that by its magnitude, complemented. -/
theorem signedDivisionQuotient : Obligations.SignedDivisionQuotient := by
  intro y x s q hy hmin hmax hquotient
  dsimp only at hquotient
  obtain ⟨hpos, hlo, hhi⟩ | ⟨hneg, hlo, hhi⟩ := hquotient
  · have hmsb : (s.readAxop x).msb = false := by
      rw [BitVec.msb_eq_toInt, decide_eq_false]
      omega
    have hw : ((s.readAxop x).toInt.natAbs : Int) = (s.readAxop x).toInt := by omega
    obtain ⟨t, u, ht, hu, hq⟩ := exec_divs_divq hy rfl hmin hmax
      (by rw [hw, Int.mul_comm]; exact hlo) (by rw [hw, Int.mul_comm]; exact hhi)
    rw [hmsb, if_neg Bool.false_ne_true] at hq
    exact ⟨t, u, ht, hu, hq⟩
  · have hmsb : (s.readAxop x).msb = true := by
      rw [BitVec.msb_eq_toInt, decide_eq_true]
      omega
    have hw : ((s.readAxop x).toInt.natAbs : Int) = -(s.readAxop x).toInt := by omega
    have hcomplement (k : Int) : 2 * -(s.readAxop x).toInt * -k = k * (2 * (s.readAxop x).toInt) := by ring
    obtain ⟨t, u, ht, hu, hq⟩ := exec_divs_divq (q := -(q + 1)) hy rfl (by omega) (by omega)
      (by rw [hw, hcomplement]; exact hlo)
      (by rw [hw, show -(q + 1) + 1 = -q by omega, hcomplement]; exact hhi)
    rw [hmsb, if_pos rfl] at hq
    exact ⟨t, u, ht, hu, by omega⟩

end Sys2Proof.Claims

end

/-! # Proofs: the MAC

Rounding is compared with the integer halves, once (`roundMac_eq_roundedValue`); a product is exact in its 32 bits, so
the 40-bit adder works on integers modulo 2^40 (`macProduct_eq_ofInt`). Every MAC operation ends in `State.macEnd`. -/

section

open Sys2Proof Sys2Proof.Machine

namespace Sys2Proof.Claims

/-! ## Rounding -/

/-- The midpoint at which unbiased rounding clears bit 16 (R131). -/
def clearsBit16 (biased : Bool) (v : BitVec 40) : Bool := !biased && decide (v.setWidth 16 = 0x8000#16)

/-- Rounding in terms of the one bit it clears. -/
theorem roundMac_eq (biased : Bool) (v : BitVec 40) : roundMac biased v =
    if clearsBit16 biased v then (v + 0x8000#40) &&& ~~~ BitVec.twoPow 40 16 else v + 0x8000#40 := by
  have hlow : v.extractLsb' 0 16 = v.setWidth 16 := by
    apply BitVec.eq_of_toNat_eq
    rw [BitVec.extractLsb'_toNat, BitVec.toNat_setWidth, Nat.shiftRight_zero]
  have hbit : 0x10000#40 = BitVec.twoPow 40 16 := rfl
  simp only [roundMac, clearsBit16, hlow, hbit, Bool.and_eq_true, Bool.not_eq_true', decide_eq_true_eq, and_comm]

/-- Rounding changes bit 16 of the sum at a midpoint and no other bit of it. -/
theorem getLsbD_roundMac (biased : Bool) (v : BitVec 40) (k : Nat) : (roundMac biased v).getLsbD k =
    ((v + 0x8000#40).getLsbD k && !(decide (k = 16) && clearsBit16 biased v)) := by
  rw [roundMac_eq]
  by_cases hk : k < 40
  · cases clearsBit16 biased v <;> by_cases h : k = 16 <;> simp [h, hk, Ne.symm]
  · have hsum : (v + 0x8000#40).getLsbD k = false := BitVec.getLsbD_of_ge _ _ (by omega)
    cases clearsBit16 biased v <;> simp [hsum]

/-- Bits 15 to 0 of the sum: bit 15 is inverted. -/
theorem getLsbD_add_half (v : BitVec 40) {k : Nat} (hk : k < 16) :
    (v + 0x8000#40).getLsbD k = xor (v.getLsbD k) (decide (k = 15)) := by
  rw [BitVec.getLsbD, BitVec.toNat_add, Nat.testBit_mod_two_pow, Nat.add_comm, decide_eq_true (by omega), Bool.true_and]
  by_cases h : k = 15
  · subst h
    exact (Nat.testBit_two_pow_add_eq v.toNat 15).trans (by simp [BitVec.getLsbD])
  · rw [decide_eq_false h, Bool.xor_false]
    exact Nat.testBit_two_pow_add_gt (i := 15) (by omega) v.toNat

/-- A vector without one of its bits, as a number. -/
theorem toNat_and_not_twoPow (v : BitVec 40) : (v &&& ~~~ BitVec.twoPow 40 16).toNat =
    v.toNat - v.toNat / 2 ^ 16 % 2 * 2 ^ 16 := by
  have hdisjoint : (v &&& ~~~ BitVec.twoPow 40 16) + (v &&& BitVec.twoPow 40 16) = v := by
    rw [BitVec.add_eq_or_of_and_eq_zero]
    · apply BitVec.eq_of_getLsbD_eq
      intro k hk
      rw [BitVec.getLsbD_or, BitVec.getLsbD_and, BitVec.getLsbD_and, BitVec.getLsbD_not, decide_eq_true hk]
      cases v.getLsbD k <;> cases (BitVec.twoPow 40 16).getLsbD k <;> rfl
    · apply BitVec.eq_of_getLsbD_eq
      intro k hk
      rw [BitVec.getLsbD_and, BitVec.getLsbD_and, BitVec.getLsbD_and, BitVec.getLsbD_not, BitVec.getLsbD_zero]
      cases (BitVec.twoPow 40 16).getLsbD k <;> simp
  have hbit : (v &&& BitVec.twoPow 40 16).toNat = v.toNat / 2 ^ 16 % 2 * 2 ^ 16 := by
    rw [BitVec.and_twoPow, BitVec.getLsbD, Nat.testBit_eq_decide_div_mod_eq]
    by_cases h : v.toNat / 2 ^ 16 % 2 = 1
    · rw [decide_eq_true h, if_pos rfl, h]
      rfl
    · rw [decide_eq_false h, if_neg Bool.false_ne_true, show v.toNat / 2 ^ 16 % 2 = 0 by omega]
      rfl
  have hsum := congrArg BitVec.toNat hdisjoint
  rw [BitVec.toNat_add, hbit] at hsum
  have hlt := (v &&& ~~~ BitVec.twoPow 40 16).isLt
  have hv := v.isLt
  omega

/-- Rounding in terms of the integer halves (R130, R131, R132). -/
theorem roundMac_eq_roundedValue (biased : Bool) (v : BitVec 40) : roundMac biased v = roundedValue biased v := by
  have hv := v.isLt
  have hsum : (v + 0x8000#40).toNat = (v.toNat + 2 ^ 15) % 2 ^ 40 := BitVec.toNat_add ..
  have hlow : v.setWidth 16 = 0x8000#16 ↔ v.toNat % 2 ^ 16 = 2 ^ 15 := by
    rw [← BitVec.toNat_inj, BitVec.toNat_setWidth]
    rfl
  apply BitVec.eq_of_toNat_eq
  rw [roundMac_eq, roundedValue, BitVec.toNat_ofNat, clearsBit16]
  simp only [hlow]
  by_cases hmid : v.toNat % 2 ^ 16 = 2 ^ 15
  · cases biased with
    | true =>
      simp only [hmid, Bool.not_true, Bool.false_eq_true, if_false, hsum, Bool.true_or, decide_true,
        Bool.and_true, Bool.or_true, if_true]
      omega
    | false =>
      simp only [hmid, Bool.not_false, decide_true, Bool.true_and, if_true, toNat_and_not_twoPow, hsum, Bool.false_or,
        lt_irrefl, decide_false, decide_eq_true_eq]
      split <;> omega
  · simp only [hmid, decide_false, Bool.and_false, Bool.false_and, Bool.or_false, Bool.false_eq_true, if_false, hsum,
      decide_eq_true_eq]
    split <;> omega

/-- Settles O36, by the integer halves and by the one bit that rounding clears. -/
theorem roundingIsHalfToEvenOrHalfUp : Obligations.RoundingIsHalfToEvenOrHalfUp := by
  intro biased v
  refine ⟨roundMac_eq_roundedValue biased v, ?low, ?biasedSum, ?otherBits, ?bit16⟩
  case low =>
    apply BitVec.eq_of_getLsbD_eq
    intro k hk
    have hhalf : (0x8000#16).getLsbD k = decide (k = 15) := by
      have : (0x8000#16) = BitVec.twoPow 16 15 := rfl
      rw [this, BitVec.getLsbD_twoPow]
      simp [eq_comm]
    rw [BitVec.getLsbD_setWidth, BitVec.getLsbD_xor, BitVec.getLsbD_setWidth, getLsbD_roundMac, getLsbD_add_half v hk,
      hhalf, decide_eq_false (show k ≠ 16 by omega)]
    simp [hk]
  case biasedSum => rw [roundMac_eq]; rfl
  case otherBits =>
    intro k hk
    rw [getLsbD_roundMac, decide_eq_false hk]
    simp
  case bit16 =>
    rw [getLsbD_roundMac]
    simp [clearsBit16]

/-! ## Products -/

/-- A product of factors within these bounds fits 32 bits. -/
theorem mul_bounds {a b : Int} (ha : a.natAbs ≤ 2 ^ 15) (hb : b.natAbs < 2 ^ 16) : -2 ^ 31 < a * b ∧ a * b < 2 ^ 31 := by
  have hmul : (a * b).natAbs ≤ 2 ^ 15 * (2 ^ 16 - 1) := by
    rw [Int.natAbs_mul]
    exact Nat.mul_le_mul ha (by omega)
  omega

theorem natAbs_toInt_le (v : Word) : v.toInt.natAbs ≤ 2 ^ 15 := by
  have hle := BitVec.le_toInt v
  have hlt := BitVec.toInt_lt (x := v)
  omega

theorem natAbs_toNat_lt (v : Word) : (v.toNat : Int).natAbs < 2 ^ 16 := by
  have hlt := v.isLt
  omega

/-- A product with a signed factor is exact in its 32 bits (R122). -/
theorem product_toInt_of_signed (f : Fmt) (x y : Word) (hf : f ≠ .uu) : (product f x y).toInt = fmtX f x * fmtY f y := by
  have hbounds : -2 ^ 31 < fmtX f x * fmtY f y ∧ fmtX f x * fmtY f y < 2 ^ 31 := by
    have hx := natAbs_toInt_le x
    have hy := natAbs_toInt_le y
    have hy16 : y.toInt.natAbs < 2 ^ 16 := by omega
    cases f with
    | ss | rnd => exact mul_bounds hx hy16
    | su => exact mul_bounds hx (natAbs_toNat_lt y)
    | us =>
      rw [Int.mul_comm]
      exact mul_bounds hy (natAbs_toNat_lt x)
    | uu => exact absurd rfl hf
  rw [product, BitVec.toInt_ofInt]
  exact Int.bmod_eq_of_le (by omega) (by omega)

/-- An unsigned product is exact in its 32 bits (R122). -/
theorem product_toNat_of_unsigned (x y : Word) : (product .uu x y).toNat = x.toNat * y.toNat := by
  have hlt : x.toNat * y.toNat < 2 ^ 16 * 2 ^ 16 := Nat.mul_lt_mul'' x.isLt y.isLt
  have hproduct : product .uu x y = BitVec.ofNat 32 (x.toNat * y.toNat) := by
    rw [← BitVec.ofInt_natCast, Int.natCast_mul]
    rfl
  rw [hproduct, BitVec.toNat_ofNat]
  exact Nat.mod_eq_of_lt hlt

/-- A sign extension as an integer. -/
theorem signExtend_eq_ofInt {m n : Nat} (h : m ≤ n) (v : BitVec m) : v.signExtend n = BitVec.ofInt n v.toInt := by
  rw [← BitVec.toInt_signExtend_of_le h, BitVec.ofInt_toInt]

/-- What the widened product stands for, before it is placed (R123). -/
def widenedProduct (u : UuExtend) (f : Fmt) (p : Int) : Int :=
  if f = .uu ∧ u = .sign ∧ 2 ^ 31 ≤ p then p - 2 ^ 32 else p

/-- The widened product as an integer modulo 2^40. -/
theorem widenProduct_eq_ofInt (u : UuExtend) (f : Fmt) (x y : Word) : widenProduct u f (product f x y) =
    BitVec.ofInt 40 (widenedProduct u f (fmtX f x * fmtY f y)) := by
  have hsigned (v : BitVec 32) : v.signExtend 40 = BitVec.ofInt 40 v.toInt := signExtend_eq_ofInt (by decide) v
  by_cases hf : f = .uu
  · subst hf
    have hp : fmtX .uu x * fmtY .uu y = ((product .uu x y).toNat : Int) := by
      rw [product_toNat_of_unsigned, Int.natCast_mul]
      rfl
    rw [hp]
    generalize product .uu x y = p
    have hint := BitVec.toInt_eq_toNat_cond p
    cases u with
    | sign =>
      refine (hsigned p).trans (congrArg _ ?_)
      simp only [widenedProduct, true_and]
      split at hint <;> split <;> omega
    | zero =>
      have hzero : widenedProduct .zero .uu (p.toNat : Int) = p.toNat := if_neg (by simp)
      rw [hzero, BitVec.ofInt_natCast, BitVec.ofNat_toNat]
      rfl
  · rw [widenedProduct, if_neg (fun h => hf h.1), ← product_toInt_of_signed f x y hf, ← hsigned]
    cases f with
    | uu => exact absurd rfl hf
    | ss | su | us | rnd => rfl

/-- The placed product as an integer modulo 2^40 (R123). -/
theorem macProduct_eq_ofInt (s : State) (x : Mxop) (y : Myop) (f : Fmt) :
    s.macProduct x y f = BitVec.ofInt 40 (placedProduct s x y f) := by
  have hexact : exactProduct s x y f = fmtX f (s.readMxop x) * fmtY f (s.readMyop y) := by cases f <;> rfl
  have hplaced : placedProduct s x y f =
      widenedProduct s.params.macUuExtend f (exactProduct s x y f) * (if s.intMode then 1 else 2) := rfl
  rw [hplaced, hexact, State.macProduct, widenProduct_eq_ofInt, placeProduct]
  cases s.intMode with
  | true => rw [if_pos rfl, if_pos rfl, Int.mul_one]
  | false =>
    rw [if_neg Bool.false_ne_true, if_neg Bool.false_ne_true, BitVec.ofInt_mul, BitVec.shiftLeft_eq_mul_twoPow]
    rfl

/-! ## The common end -/

/-- A field of a vector as a shift and a cut. -/
theorem extractLsb'_eq_setWidth {n : Nat} (v : BitVec n) (lo len : Nat) :
    v.extractLsb' lo len = (v >>> lo).setWidth len := by
  apply BitVec.eq_of_toNat_eq
  rw [BitVec.extractLsb'_toNat, BitVec.toNat_setWidth, BitVec.toNat_ushiftRight]

/-- MR or MF with the result (R125). -/
theorem writeMdst_eq (b : Bank) (d : Mdst) (res : BitVec 40) : b.writeMdst d res = (match d with
    | .mr => { b with
        mr2 := (res >>> 32).setWidth 8
        mr1 := (res >>> 16).setWidth 16
        mr0 := res.setWidth 16 }
    | .mf => { b with mf := (res >>> 16).setWidth 16 }) := by
  cases d with
  | mr => simp [Bank.writeMdst, Bank.setMr, extractLsb'_eq_setWidth]
  | mf => simp [Bank.writeMdst, extractLsb'_eq_setWidth]

/-- An operation that hands the rounded value of `z` modulo 2^40 to the common end does what R125 and R126 say. -/
theorem macResult_of_exec_eq {s : State} {i : Instr} {d : Mdst} {f : Fmt} {z : Int}
    (hexec : exec i s = .next (s.macEnd d (s.macRound f (BitVec.ofInt 40 z)))) : MacResult s i d f z := by
  have hround : s.macRound f (BitVec.ofInt 40 z) =
      if f = .rnd then roundedValue (s.params.hasBiasrnd && s.biasrnd) (BitVec.ofInt 40 z) else BitVec.ofInt 40 z := by
    cases f with
    | rnd => exact roundMac_eq_roundedValue ..
    | ss | su | us | uu => rfl
  rw [hround] at hexec
  refine ⟨_, hexec, ?_, ?_, State.macEnd_inactiveBank .., rfl, rfl, rfl, rfl, rfl⟩
  · exact (State.macEnd_bank ..).trans (writeMdst_eq ..)
  · rw [State.macEnd_astat, macMv_eq]

/-- Settles O35: the three adder outputs as integers modulo 2^40. -/
theorem multiplyAccumulate : Obligations.MultiplyAccumulate := by
  intro d x y f s
  have hmr : s.bank.mr = BitVec.ofInt 40 s.bank.mr.toInt := BitVec.ofInt_toInt.symm
  refine ⟨macResult_of_exec_eq ?mul, macResult_of_exec_eq ?macc, macResult_of_exec_eq ?msub⟩
  case mul => rw [← macProduct_eq_ofInt]; rfl
  case macc => rw [BitVec.ofInt_add, ← macProduct_eq_ofInt, ← hmr]; rfl
  case msub =>
    rw [Int.sub_eq_add_neg, BitVec.ofInt_add, BitVec.ofInt_neg, ← macProduct_eq_ofInt, ← hmr, ← BitVec.sub_eq_add_neg]
    rfl

/-! ## Clearing and saturating MR -/

/-- Settles O37: the common end with result 0. -/
theorem clearAccumulator : Obligations.ClearAccumulator := by
  intro s
  refine ⟨_, rfl, ?_, ?_, State.macEnd_inactiveBank .., rfl, rfl, rfl, rfl, rfl⟩
  · rw [State.macEnd_bank]
    rfl
  · rw [State.macEnd_astat]
    rfl

/-- Settles O38, by MV and the sign of MR2. -/
theorem saturateAccumulator : Obligations.SaturateAccumulator := by
  intro s
  refine ⟨_, rfl, ?_⟩
  rw [← BitVec.msb_eq_getLsbD_last s.bank.mr2]
  cases s.astat.mv with
  | false => exact ⟨rfl, rfl, rfl, rfl, rfl, rfl, rfl, rfl⟩
  | true =>
    refine ⟨?_, rfl, keepsRest_setBank ..⟩
    rw [if_pos rfl, State.setBank_bank]
    cases s.bank.mr2.msb <;> rfl

/-- An operation that passes the 40-bit adder ends with a result in its destination. -/
theorem exec_of_macDst {i : Instr} {d : Mdst} (s : State) (hdst : macDst i = some d) :
    ∃ res, exec i s = .next (s.macEnd d res) := by
  cases i
  case mul | macc | msub | mrclr =>
    cases hdst
    exact ⟨_, rfl⟩
  all_goals cases hdst

/-- The value SAT MR leaves in MR. -/
def saturatedMr (t : State) : BitVec 40 :=
  if t.astat.mv then (if t.bank.mr2.msb then 0xFF80000000#40 else 0x007FFFFFFF#40) else t.bank.mr

/-- SAT MR replaces MR by its saturated value and writes no flag (R136). -/
theorem exec_satmr_mr (t : State) : ∃ u, exec .satmr t = .next u ∧ u.bank.mr = saturatedMr t ∧ u.astat = t.astat := by
  refine ⟨_, rfl, ?_⟩
  unfold saturatedMr
  cases t.astat.mv with
  | false => exact ⟨rfl, rfl⟩
  | true =>
    rw [if_pos rfl, State.setBank_bank, Bank.setMr_mr]
    exact ⟨rfl, rfl⟩

/-- Settles O39: after the common end MV says whether MR is outside 32 bits, and MR2 its sign. -/
theorem saturationAfterAccumulationClamps : Obligations.SaturationAfterAccumulationClamps := by
  intro i s t hdst h
  obtain ⟨res, hres⟩ := exec_of_macDst s hdst
  rw [hres] at h
  cases h
  obtain ⟨u, hu, hmr, hflags⟩ := exec_satmr_mr (s.macEnd .mr res)
  refine ⟨u, hu, ?_, hflags⟩
  have hsign : (res.extractLsb' 32 8).msb = decide (res.toInt < 0) := by
    rw [← BitVec.msb_eq_toInt, BitVec.msb_eq_getLsbD_last, BitVec.msb_eq_getLsbD_last, BitVec.getLsbD_extractLsb']
    rfl
  have hbank : (s.macEnd .mr res).bank = s.bank.setMr res := State.macEnd_bank ..
  rw [hmr, saturatedMr, hbank, State.macEnd_astat, Bank.setMr_mr, Bank.setMr_mr2, hsign, macMv_eq]
  have hmin : (0xFF80000000#40).toInt = -2 ^ 31 := rfl
  have hmax : (0x007FFFFFFF#40).toInt = 2 ^ 31 - 1 := rfl
  simp only [decide_eq_true_eq]
  split
  · split
    · rw [hmin]; omega
    · rw [hmax]; omega
  · omega

end Sys2Proof.Claims

end

/-! # Proofs: moves, status and modes

MOVE is a load of what its source drives on the bus, so its effect is that of LOAD (`loadEffect_of_exec_eq_writeDreg`);
the writes of ASTAT, MSTAT and BIASRND touch one field each. -/

section

open Sys2Proof Sys2Proof.Machine

namespace Sys2Proof.Claims

/-- The register and the bus value of a MOVE: what the source drives (R181). -/
theorem exec_move_eq_writeDreg (d r : Dreg) (s : State) :
    exec (.move d r) s = .next (s.setBank (s.bank.writeDreg d (s.bank.readDreg r))) := rfl

/-- Settles O51: the bus values of the three narrow registers are sign extensions. -/
theorem moveLoadsTheBusValue : Obligations.MoveLoadsTheBusValue := by
  intro d r s
  refine loadEffect_of_exec_eq_writeDreg ((exec_move_eq_writeDreg d r s).trans ?_)
  cases r
  case mr2 | se | sb => rw [← signExtend_eq_ofInt (by decide)]; rfl
  all_goals rfl

/-- Settles O52: ASTATW writes the flags by the layout and no other field. -/
theorem statusWrite : Obligations.StatusWrite := by
  intro v s
  refine ⟨_, rfl, rfl, ⟨rfl, rfl, rfl, rfl, rfl, rfl⟩, rfl, fun hfamily => ?_, ?_⟩
  · rw [hfamily]
    rfl
  · rintro rfl
    simp [astatOf]

/-- The bit of MSTAT that MODE writes (R185). -/
theorem getLsbD_mstatWith_modeBit_self (v : BitVec 16) (m : Mode) (ena : Bool) :
    (mstatWith v (modeBit m) ena).getLsbD (modeBit m) = ena := by
  rw [getLsbD_mstatWith _ _ _ _ (modeBit_lt m), if_pos rfl]

/-- Settles O53: MODE writes its bit of MSTAT and no other field. -/
theorem modeWritesOneBit : Obligations.ModeWritesOneBit := by
  intro m ena s
  refine ⟨_, rfl, ⟨?_, fun k hk => ?_⟩, rfl, rfl, ?_, rfl, rfl, rfl, rfl, rfl⟩
  · have h := getLsbD_mstatWith_modeBit_self s.mstat m ena
    cases m <;> exact h
  · refine getLsbD_mstatWith_modeBit_of_ne s.mstat m ena ?_
    cases m <;> exact hk
  · rintro rfl
    have hbit : (mstatWith s.mstat 0 ena).getLsbD 0 = ena := getLsbD_mstatWith_modeBit_self s.mstat .secReg ena
    simp only [State.bank, State.secReg, modeBit, hbit]

/-- Settles O54: on a member with the bit BIAS writes it and no other field. -/
theorem biasWrite : Obligations.BiasWrite :=
  fun _ _ hmember => ⟨_, if_pos hmember, rfl, rfl, rfl, rfl, rfl, rfl, rfl, rfl⟩

end Sys2Proof.Claims

end

/-! # Proofs: shifts as arithmetic

The array stands its input, continued upward by the extension bit, at a position of the 32-bit field. So its output is
that 32-bit value (`extended`) shifted left, or right arithmetically, by the position (`shiftArray_eq_shift`); two shifts
of the halves of a value by one code, ORed, are a shift of the whole value. -/

section

open Sys2Proof Sys2Proof.Machine

namespace Sys2Proof.Claims

/-! ## The array as a shift -/

/-- Settles O41: NORM ends in the shared write of SR, with the negated SE as the code. -/
theorem normaliseForm : Obligations.NormaliseForm := by
  intro x h o s
  cases h with
  | hi | lo => exact shiftResult_of_exec_eq_srEnd rfl

/-- The input continued upward by the extension bit. -/
def extended (inp : Word) (ext : Bool) : BitVec 32 := (if ext then BitVec.allOnes 16 else 0#16) ++ inp

/-- Every bit of the continued input. -/
theorem getLsbD_extended (inp : Word) (ext : Bool) {k : Nat} (hk : k < 32) :
    (extended inp ext).getLsbD k = if k < 16 then inp.getLsbD k else ext := by
  have hlt : k - 16 < 16 := by omega
  unfold extended
  erw [BitVec.getLsbD_append]
  cases ext with
  | false => rw [if_neg Bool.false_ne_true, BitVec.getLsbD_zero]
  | true => rw [if_pos rfl, BitVec.getLsbD_allOnes, decide_eq_true hlt]

/-- The continued input has the extension bit as its sign. -/
theorem msb_extended (inp : Word) (ext : Bool) : (extended inp ext).msb = ext :=
  (BitVec.msb_eq_getLsbD_last _).trans (getLsbD_extended inp ext (by decide))

/-- The continued input as an integer. -/
theorem toInt_extended (inp : Word) (ext : Bool) : (extended inp ext).toInt = inp.toNat - if ext then 2 ^ 16 else 0 := by
  unfold extended
  rw [toInt_append_word]
  cases ext with
  | false => simp
  | true =>
    rw [if_pos rfl, if_pos rfl, BitVec.toInt_allOnes]
    simp
    omega

/-- Continued by its sign the input keeps its signed value. -/
theorem toInt_extended_msb (inp : Word) : (extended inp (inp.getLsbD 15)).toInt = inp.toInt := by
  rw [toInt_extended, ← BitVec.msb_eq_getLsbD_last inp, BitVec.msb_eq_decide, BitVec.toInt_eq_toNat_cond]
  have hlt := inp.isLt
  simp only [decide_eq_true_eq]
  split <;> split <;> omega

/-- Right of the input the array puts 0 (R150). -/
theorem arrayBit_of_lt (inp : Word) {p : Int} (ext : Bool) {k : Nat} (h : (k : Int) < p) :
    arrayBit inp p ext k = false :=
  if_pos (show (k : Int) - p < 0 by omega)

/-- At the input's place the array puts its bits (R150). -/
theorem arrayBit_of_input (inp : Word) {p : Int} (ext : Bool) {k : Nat} (hlo : p ≤ k) (hhi : (k : Int) < p + 16) :
    arrayBit inp p ext k = inp.getLsbD (k - p).toNat :=
  (if_neg (show ¬ (k : Int) - p < 0 by omega)).trans (if_pos (show (k : Int) - p ≤ 15 by omega))

/-- Left of the input the array puts the extension bit (R150). -/
theorem arrayBit_of_ge (inp : Word) {p : Int} (ext : Bool) {k : Nat} (h : p + 16 ≤ k) : arrayBit inp p ext k = ext :=
  (if_neg (show ¬ (k : Int) - p < 0 by omega)).trans (if_neg (show ¬ (k : Int) - p ≤ 15 by omega))

/-- The array's output is the continued input shifted by the position: left, or right arithmetically (R150). -/
theorem shiftArray_eq_shift (inp : Word) (c : Int) (h : HiLo) (ext : Bool) : shiftArray inp c h ext =
    if 0 ≤ arrayPosition c h then extended inp ext <<< (arrayPosition c h).toNat
    else (extended inp ext).sshiftRight (-arrayPosition c h).toNat := by
  apply BitVec.eq_of_getLsbD_eq
  intro k hk
  rw [getLsbD_shiftArray, decide_eq_true hk, Bool.true_and]
  generalize arrayPosition c h = p
  by_cases hp : 0 ≤ p
  · obtain ⟨n, rfl⟩ := Int.eq_ofNat_of_zero_le hp
    rw [if_pos hp, BitVec.getLsbD_shiftLeft, decide_eq_true hk, Bool.true_and, Int.toNat_natCast]
    by_cases hkn : k < n
    · rw [decide_eq_true hkn, arrayBit_of_lt inp ext (by omega)]
      rfl
    · rw [decide_eq_false hkn, Bool.not_false, Bool.true_and, getLsbD_extended _ _ (by omega)]
      by_cases hin : k < n + 16
      · rw [arrayBit_of_input inp ext (by omega) (by omega), if_pos (by omega), show ((k : Int) - n).toNat = k - n by omega]
      · rw [arrayBit_of_ge inp ext (by omega), if_neg (by omega)]
  · obtain ⟨n, hn⟩ := Int.eq_ofNat_of_zero_le (show 0 ≤ -p by omega)
    obtain rfl : p = -n := by omega
    rw [if_neg hp, BitVec.getLsbD_sshiftRight, decide_eq_false (by omega : ¬ 32 ≤ k), Bool.not_false, Bool.true_and,
      Int.neg_neg, Int.toNat_natCast, msb_extended]
    by_cases hin : n + k < 16
    · rw [arrayBit_of_input inp ext (by omega) (by omega), if_pos (by omega), getLsbD_extended _ _ (by omega), if_pos hin,
        show ((k : Int) - -n).toNat = n + k by omega]
    · rw [arrayBit_of_ge inp ext (by omega)]
      by_cases hnk : n + k < 32
      · rw [if_pos hnk, getLsbD_extended _ _ hnk, if_neg hin]
      · rw [if_neg hnk]

/-! ## Scaling -/

/-- An integer within the signed range is read back. -/
theorem toInt_ofInt_32 {z : Int} (hlo : -2 ^ 31 ≤ z) (hhi : z < 2 ^ 31) : (BitVec.ofInt 32 z).toInt = z := by
  rw [BitVec.toInt_ofInt]
  exact Int.bmod_eq_of_le (by omega) (by omega)

/-- A left shift as a multiplication modulo 2^32. -/
theorem shiftLeft_eq_ofInt (v : BitVec 32) (n : Nat) : v <<< n = BitVec.ofInt 32 (v.toInt * 2 ^ n) := by
  have hpow : BitVec.twoPow 32 n = BitVec.ofInt 32 (2 ^ n) := by
    have hcast : (2 ^ n : Int) = ((2 ^ n : Nat) : Int) := by push_cast; rfl
    apply BitVec.eq_of_toNat_eq
    rw [hcast, BitVec.ofInt_natCast, BitVec.toNat_twoPow, BitVec.toNat_ofNat]
  rw [BitVec.shiftLeft_eq_mul_twoPow, BitVec.ofInt_mul, BitVec.ofInt_toInt, hpow]

/-- The array's output under LO as the continued input times a power of two, rounded down. -/
theorem shiftArray_lo_eq_ofInt (inp : Word) (c : Int) (ext : Bool) : shiftArray inp c .lo ext =
    BitVec.ofInt 32 ((extended inp ext).toInt * 2 ^ c.toNat / 2 ^ (-c).toNat) := by
  have hposition : arrayPosition c .lo = c := rfl
  rw [shiftArray_eq_shift, hposition]
  by_cases hc : 0 ≤ c
  · rw [if_pos hc, shiftLeft_eq_ofInt, show (-c).toNat = 0 by omega, Int.pow_zero, Int.ediv_one]
  · have hshift : ((extended inp ext).sshiftRight (-c).toNat).toInt = (extended inp ext).toInt / 2 ^ (-c).toNat := by
      rw [BitVec.toInt_sshiftRight, Int.shiftRight_eq_div_pow]
      push_cast
      rfl
    rw [if_neg hc, show c.toNat = 0 by omega, Int.pow_zero, Int.mul_one, ← hshift, BitVec.ofInt_toInt]

/-- Scaling by a code up to 16 multiplies a bound by at most 2^16. -/
theorem scaled_bounds {z lo hi c : Int} (hc : c ≤ 16) (hlo : -lo ≤ z) (hhi : z < hi) (hlo0 : 0 ≤ lo) (hhi0 : 0 ≤ hi) :
    -(lo * 2 ^ 16) ≤ z * 2 ^ c.toNat / 2 ^ (-c).toNat ∧ z * 2 ^ c.toNat / 2 ^ (-c).toNat < hi * 2 ^ 16 := by
  by_cases hpos : 0 ≤ c
  · have hpow : (2 : Int) ^ c.toNat ≤ 2 ^ 16 := pow_le_pow_right₀ (by decide) (by omega)
    have hone : (1 : Int) ≤ 2 ^ c.toNat := one_le_pow₀ (by decide)
    rw [show (-c).toNat = 0 by omega, Int.pow_zero, Int.ediv_one]
    constructor <;> nlinarith
  · have hone : (1 : Int) ≤ 2 ^ (-c).toNat := one_le_pow₀ (by decide)
    rw [show c.toNat = 0 by omega, Int.pow_zero, Int.mul_one]
    constructor
    · rw [Int.le_ediv_iff_mul_le (by omega)]
      nlinarith
    · rw [Int.ediv_lt_iff_lt_mul (by omega)]
      nlinarith

/-- Under LO, for codes up to 16, the array scales its input: as a signed value where the extension bit is its sign. -/
theorem toInt_shiftArray_lo (inp : Word) {c : Int} (hc : c ≤ 16) :
    (shiftArray inp c .lo (inp.getLsbD 15)).toInt = inp.toInt * 2 ^ c.toNat / 2 ^ (-c).toNat := by
  obtain ⟨hlo, hhi⟩ := scaled_bounds (lo := 2 ^ 15) (hi := 2 ^ 15) hc (BitVec.le_toInt inp) BitVec.toInt_lt
    (by decide) (by decide)
  rw [shiftArray_lo_eq_ofInt, toInt_extended_msb, toInt_ofInt_32 hlo hhi]

/-- Under LO, for codes up to 16, the array scales its input: as an unsigned value where the extension bit is 0. -/
theorem toNat_shiftArray_lo (inp : Word) {c : Int} (hc : c ≤ 16) :
    ((shiftArray inp c .lo false).toNat : Int) = inp.toNat * 2 ^ c.toNat / 2 ^ (-c).toNat := by
  have hlt := inp.isLt
  obtain ⟨hlo, hhi⟩ := scaled_bounds (z := inp.toNat) (lo := 0) (hi := 2 ^ 16) hc (by omega) (by omega)
    (by decide) (by decide)
  rw [shiftArray_lo_eq_ofInt, toInt_extended, if_neg Bool.false_ne_true, Int.sub_zero, BitVec.toNat_ofInt]
  omega

/-- An operation that writes the array's output into SR leaves what that output reads as, ORed under [SR OR]. -/
theorem scaledInSr_of_exec_eq {s : State} {i : Instr} {read : BitVec 32 → Int} {z c : Int} {srOr : Bool} {a : BitVec 32}
    (hexec : exec i s = .next (s.srEnd srOr a)) (hread : read a = z * 2 ^ c.toNat / 2 ^ (-c).toNat) :
    ScaledInSr s i read z c srOr :=
  ⟨_, a, hexec, hread, by rw [State.srEnd_bank, Bank.setSr_sr]⟩

/-- Settles O42: the four forms under LO hand the array a code up to 16. -/
theorem shiftsScaleByPowersOfTwo : Obligations.ShiftsScaleByPowersOfTwo := by
  intro x e o s
  refine ⟨fun hc => ⟨?ashiftImm, ?lshiftImm⟩, fun hc => ⟨?ashiftSe, ?lshiftSe⟩⟩
  case ashiftImm => exact scaledInSr_of_exec_eq (exec_ashiftImm_eq_srEnd ..) (toInt_shiftArray_lo _ hc)
  case lshiftImm => exact scaledInSr_of_exec_eq (exec_lshiftImm_eq_srEnd ..) (toNat_shiftArray_lo _ hc)
  case ashiftSe => exact scaledInSr_of_exec_eq (exec_ashiftSe_eq_srEnd ..) (toInt_shiftArray_lo _ hc)
  case lshiftSe => exact scaledInSr_of_exec_eq (exec_lshiftSe_eq_srEnd ..) (toNat_shiftArray_lo _ hc)

/-! ## The two halves of a value -/

/-- Every bit of a value from its halves. -/
theorem getLsbD_append_word (hi lo : Word) (k : Nat) :
    (hi ++ lo : BitVec 32).getLsbD k = if k < 16 then lo.getLsbD k else hi.getLsbD (k - 16) :=
  BitVec.getLsbD_append ..

/-- Bit `k` of the two shifted halves ORed is bit `k - c` of the value they make, with the extension bit above it. -/
theorem getLsbD_shiftArray_halves (hi lo : Word) (c : Int) (ext : Bool) {k : Nat} (hk : k < 32) :
    (shiftArray lo c .lo false ||| shiftArray hi c .hi ext).getLsbD k =
      if (k : Int) < c then false
      else if k < c + 32 then (hi ++ lo : BitVec 32).getLsbD (k - c).toNat else ext := by
  rw [BitVec.getLsbD_or, getLsbD_shiftArray, getLsbD_shiftArray, decide_eq_true hk, Bool.true_and, Bool.true_and,
    getLsbD_append_word]
  have hlo : arrayPosition c .lo = c := rfl
  have hhi : arrayPosition c .hi = c + 16 := rfl
  rw [hlo, hhi]
  by_cases hright : (k : Int) < c
  · rw [if_pos hright, arrayBit_of_lt lo false hright, arrayBit_of_lt hi ext (by omega), Bool.or_false]
  rw [if_neg hright]
  by_cases hlow : (k : Int) < c + 16
  · rw [arrayBit_of_input lo false (by omega) hlow, arrayBit_of_lt hi ext hlow, Bool.or_false, if_pos (by omega),
      if_pos (by omega)]
  rw [arrayBit_of_ge lo false (by omega), Bool.false_or]
  by_cases hhigh : (k : Int) < c + 32
  · rw [arrayBit_of_input hi ext (by omega) (by omega), if_pos hhigh, if_neg (by omega),
      show ((k : Int) - (c + 16)).toNat = ((k : Int) - c).toNat - 16 by omega]
  · rw [arrayBit_of_ge hi ext (by omega), if_neg hhigh]

/-- The halves of a value shifted left by one code and ORed are the shifted value; no extension bit comes in. -/
theorem shiftArray_halves_left (hi lo : Word) (n : Nat) (ext : Bool) :
    shiftArray lo n .lo false ||| shiftArray hi n .hi ext = (hi ++ lo : BitVec 32) <<< n := by
  apply BitVec.eq_of_getLsbD_eq
  intro k hk
  rw [getLsbD_shiftArray_halves hi lo n ext hk, BitVec.getLsbD_shiftLeft, decide_eq_true hk, Bool.true_and]
  by_cases hkn : k < n
  · rw [if_pos (by omega), decide_eq_true hkn]
    rfl
  · rw [if_neg (by omega), if_pos (by omega), decide_eq_false hkn, show ((k : Int) - n).toNat = k - n by omega]
    rfl

/-- The halves of a value shifted right by one code and ORed are the value shifted right arithmetically. -/
theorem shiftArray_halves_right (hi lo : Word) (n : Nat) :
    shiftArray lo (-n) .lo false ||| shiftArray hi (-n) .hi (hi.getLsbD 15) = (hi ++ lo : BitVec 32).sshiftRight n := by
  apply BitVec.eq_of_getLsbD_eq
  intro k hk
  rw [getLsbD_shiftArray_halves hi lo (-n) _ hk, BitVec.getLsbD_sshiftRight, decide_eq_false (by omega : ¬ 32 ≤ k),
    Bool.not_false, Bool.true_and, if_neg (by omega), BitVec.msb_eq_getLsbD_last, getLsbD_append_word hi lo (32 - 1)]
  by_cases hkn : n + k < 32
  · rw [if_pos (by omega), if_pos hkn, show ((k : Int) - -n).toNat = n + k by omega]
  · rw [if_neg (by omega), if_neg hkn]
    rfl

/-- A shifter input outside SR is as before a write of SR. -/
theorem readSxop_srEnd (s : State) (srOr : Bool) (a : BitVec 32) (x : Sxop) (hx : notSr x = true) :
    (s.srEnd srOr a).readSxop x = s.readSxop x := by
  cases x
  case sr0 | sr1 => cases hx
  all_goals simp only [State.readSxop, State.srEnd_bank, Bank.mr2Bus, Bank.setSr_si, Bank.setSr_ar, Bank.setSr_mr0,
    Bank.setSr_mr1, Bank.setSr_mr2]

/-- Settles O43: the second shift reads the high half and SE as they were, and ORs. -/
theorem denormalisationShifts32Bits : Obligations.DenormalisationShifts32Bits := by
  intro xl xh s hxh
  refine ⟨_, _, exec_lshiftSe_eq_srEnd .., exec_ashiftSe_eq_srEnd .., ?_⟩
  rw [readSxop_srEnd _ _ _ _ hxh, State.srEnd_bank, Bank.setSr_sr, if_pos rfl, State.srEnd_bank, Bank.setSr_sr,
    Bank.setSr_se, if_neg Bool.false_ne_true]
  dsimp only
  by_cases hneg : s.bank.se.toInt < 0
  · obtain ⟨n, hn⟩ := Int.eq_ofNat_of_zero_le (show 0 ≤ -s.bank.se.toInt by omega)
    rw [if_pos hneg, hn, show s.bank.se.toInt = -n by omega]
    exact shiftArray_halves_right ..
  · obtain ⟨n, hn⟩ := Int.eq_ofNat_of_zero_le (show 0 ≤ s.bank.se.toInt by omega)
    rw [if_neg hneg, hn]
    exact shiftArray_halves_left ..

end Sys2Proof.Claims

end

/-! # Proofs: exponents

The exponent detector counts the run of leading bits (`leadRun`); the operations write what it counts into SE or SB, which
hold it, since a run has at most 16 bits. -/

section

open Sys2Proof Sys2Proof.Machine

namespace Sys2Proof.Claims

/-! ## The detector -/

/-- The detector's count is the run of leading bits that R156 and R157 name. -/
theorem leadingRun_leadRun (v : Word) (b : Bool) : LeadingRun v b (leadRun v b 16) := leadRun_spec v b 16

/-- The number of leading bits equal to the sign, the sign among them. -/
def signRun (v : Word) : Nat := leadRun v (v.getLsbD 15) 16

theorem leadingRun_signRun (v : Word) : LeadingRun v (v.getLsbD 15) (signRun v) := leadingRun_leadRun v _

/-- The sign itself is in its run. -/
theorem signRun_pos (v : Word) : 1 ≤ signRun v := by
  obtain ⟨-, -, hstop⟩ := leadingRun_signRun v
  by_contra h
  have hzero : signRun v = 0 := by omega
  rw [hzero] at hstop
  exact hstop (by decide) rfl

theorem signRun_le (v : Word) : signRun v ≤ 16 := (leadingRun_signRun v).1

/-- The detector under HI, HIX and in EXPADJ: minus the number of redundant sign bits (R156). -/
theorem expHiOf_eq (v : Word) : expHiOf v = -((signRun v : Int) - 1) := by
  rw [expHiOf, BitVec.msb_eq_getLsbD_last]
  rfl

/-- SE holds every exponent. -/
theorem toInt_ofInt_8 {z : Int} (hlo : -128 ≤ z) (hhi : z < 128) : (BitVec.ofInt 8 z).toInt = z := by
  rw [BitVec.toInt_ofInt]
  exact Int.bmod_eq_of_le (by omega) (by omega)

/-- SB holds every exponent of one word. -/
theorem toInt_ofInt_5 {z : Int} (hlo : -16 ≤ z) (hhi : z < 16) : (BitVec.ofInt 5 z).toInt = z := by
  rw [BitVec.toInt_ofInt]
  exact Int.bmod_eq_of_le (by omega) (by omega)

/-- The exponent of a word as SE holds it. -/
theorem toInt_ofInt_expHiOf (v : Word) : (BitVec.ofInt 8 (expHiOf v)).toInt = -((signRun v : Int) - 1) := by
  have hpos := signRun_pos v
  have hle := signRun_le v
  rw [expHiOf_eq, toInt_ofInt_8 (by omega) (by omega)]

/-! ## The operations -/

/-- A write of SE and SS changes nothing outside the active bank and SS. -/
theorem keepsRest_expEnd (s : State) (e : BitVec 8) (ss : Bool) : KeepsRest s (s.expEnd e ss) :=
  ⟨State.expEnd_inactiveBank s e ss, rfl, rfl, rfl, rfl, rfl⟩

/-- EXP (HI): the exponent into SE, the sign into SS (R165). -/
theorem exec_expHi_eq (x : Sxop) (s : State) : exec (.expHi x) s =
    .next (s.expEnd (BitVec.ofInt 8 (expHiOf (s.readSxop x))) ((s.readSxop x).getLsbD 15)) := by
  rw [← BitVec.msb_eq_getLsbD_last (s.readSxop x)]
  rfl

/-- EXP (HIX) without an overflow: as EXP (HI) (R166). -/
theorem exec_expHix_of_not_av (x : Sxop) (s : State) (hav : s.astat.av = false) : exec (.expHix x) s =
    .next (s.expEnd (BitVec.ofInt 8 (expHiOf (s.readSxop x))) ((s.readSxop x).getLsbD 15)) := by
  rw [← BitVec.msb_eq_getLsbD_last (s.readSxop x)]
  exact congrArg Host.Outcome.next (if_neg (by rw [hav]; exact Bool.false_ne_true))

/-- EXP (HIX) after an overflow: +1 into SE, the inverted sign into SS (R166). -/
theorem exec_expHix_of_av (x : Sxop) (s : State) (hav : s.astat.av = true) : exec (.expHix x) s =
    .next (s.expEnd 0x01#8 (!(s.readSxop x).getLsbD 15)) := by
  rw [← BitVec.msb_eq_getLsbD_last (s.readSxop x)]
  exact congrArg Host.Outcome.next (if_pos hav)

/-- Settles O44: the run of the sign, as SE holds it, or the fixed +1 of an overflow. -/
theorem exponentHighAndExtended : Obligations.ExponentHighAndExtended := by
  intro x s
  have hexp := toInt_ofInt_expHiOf (s.readSxop x)
  refine ⟨signRun (s.readSxop x), leadingRun_signRun _, ⟨_, exec_expHi_eq x s, ?_, rfl, ?_, keepsRest_expEnd ..⟩, ?_⟩
  · rw [State.expEnd_bank, hexp]
  · rw [State.expEnd_bank]
  · cases hav : s.astat.av with
    | false =>
      refine ⟨_, exec_expHix_of_not_av x s hav, ?_, ?_, ?_, keepsRest_expEnd ..⟩
      · rw [State.expEnd_bank, hexp, if_neg Bool.false_ne_true]
      · rw [State.expEnd_astat, Bool.false_xor]
      · rw [State.expEnd_bank]
    | true =>
      refine ⟨_, exec_expHix_of_av x s hav, ?_, ?_, ?_, keepsRest_expEnd ..⟩
      · rw [State.expEnd_bank]
        rfl
      · rw [State.expEnd_astat, Bool.true_xor]
      · rw [State.expEnd_bank]

/-- EXP (LO) with SE at -15: the low word's run of SS (R167). -/
theorem exec_expLo_of_se (x : Sxop) (s : State) (hse : s.bank.se.toInt = -15) : exec (.expLo x) s =
    .next (s.setBank { s.bank with se := BitVec.ofInt 8 (expLoOf (s.readSxop x) s.astat.ss) }) :=
  congrArg Host.Outcome.next (if_pos hse)

/-- EXP (LO) with another value in SE changes nothing (R167). -/
theorem exec_expLo_of_ne (x : Sxop) (s : State) (hse : s.bank.se.toInt ≠ -15) : exec (.expLo x) s = .next s :=
  congrArg Host.Outcome.next (if_neg hse)

/-- The exponent of a low word as SE holds it. -/
theorem toInt_ofInt_expLoOf (v : Word) (ss : Bool) :
    (BitVec.ofInt 8 (expLoOf v ss)).toInt = -15 - (leadRun v ss 16 : Int) := by
  have hle := (leadingRun_leadRun v ss).1
  exact toInt_ofInt_8 (by rw [expLoOf]; omega) (by rw [expLoOf]; omega)

/-- A state keeps everything of itself. -/
theorem keepsRest_self (s : State) : KeepsRest s s := ⟨rfl, rfl, rfl, rfl, rfl, rfl⟩

/-- Settles O45, by whether SE holds -15. -/
theorem exponentLow : Obligations.ExponentLow := by
  intro x s
  refine ⟨leadRun (s.readSxop x) s.astat.ss 16, leadingRun_leadRun _ _, ?_⟩
  by_cases hse : s.bank.se.toInt = -15
  · refine ⟨_, exec_expLo_of_se x s hse, ?_, ?_, rfl, keepsRest_setBank ..⟩
    · rw [State.setBank_bank, if_pos hse, toInt_ofInt_expLoOf]
    · rw [State.setBank_bank]
  · exact ⟨s, exec_expLo_of_ne x s hse, (if_neg hse).symm, rfl, rfl, keepsRest_self s⟩

/-- Settles O46: SB is written where the exponent is greater, and holds it. -/
theorem blockExponentIsTheMaximum : Obligations.BlockExponentIsTheMaximum := by
  intro x s
  have hpos := signRun_pos (s.readSxop x)
  have hle := signRun_le (s.readSxop x)
  have hexp := expHiOf_eq (s.readSxop x)
  refine ⟨signRun (s.readSxop x), leadingRun_signRun _, ?_⟩
  by_cases hgt : expHiOf (s.readSxop x) > s.bank.sb.toInt
  · refine ⟨_, congrArg Host.Outcome.next (if_pos hgt), ?_, ?_, rfl, keepsRest_setBank ..⟩
    · rw [State.setBank_bank, toInt_ofInt_5 (by omega) (by omega)]
      omega
    · rw [State.setBank_bank]
  · refine ⟨s, congrArg Host.Outcome.next (if_neg hgt), ?_, rfl, rfl, keepsRest_self s⟩
    omega

end Sys2Proof.Claims

end

/-! # Proofs: normalisation

Each normalisation shifts a 32-bit value left by the number of its redundant sign bits (`RedundantSignBits`). Such a shift
loses nothing and leaves one sign bit, which is shown once; a word, two halves, and an adder output that overflowed then
differ in the 32-bit value and in what counts its redundant bits. -/

section

open Sys2Proof Sys2Proof.Machine

namespace Sys2Proof.Claims

/-! ## Shifting out redundant sign bits -/

/-- The `e` bits below the sign equal it, and unless the value is 0 the next one does not. -/
def RedundantSignBits (v : BitVec 32) (e : Nat) : Prop :=
  e ≤ 31 ∧ (∀ j ≤ e, v.getLsbD (31 - j) = v.getLsbD 31) ∧ (v ≠ 0 → e < 31 → v.getLsbD (30 - e) ≠ v.getLsbD 31)

/-- A value with `e` redundant sign bits needs `32 - e` bits. -/
theorem toInt_bounds_of_redundant {v : BitVec 32} {e : Nat} (h : RedundantSignBits v e) :
    -2 ^ (31 - e) ≤ v.toInt ∧ v.toInt < 2 ^ (31 - e) := by
  obtain ⟨he, hrun, -⟩ := h
  have hshift : v.sshiftRight (31 - e) = if v.getLsbD 31 then BitVec.allOnes 32 else 0#32 := by
    apply BitVec.eq_of_getLsbD_eq
    intro k hk
    have hsign : v.msb = v.getLsbD 31 := BitVec.msb_eq_getLsbD_last v
    have hbit : (v.sshiftRight (31 - e)).getLsbD k = v.getLsbD 31 := by
      rw [BitVec.getLsbD_sshiftRight, decide_eq_false (by omega), Bool.not_false, Bool.true_and, hsign]
      by_cases hin : 31 - e + k < 32
      · rw [if_pos hin, show 31 - e + k = 31 - (e - k) by omega, hrun _ (by omega)]
      · rw [if_neg hin]
    rw [hbit]
    cases v.getLsbD 31 with
    | false => rw [if_neg Bool.false_ne_true, BitVec.getLsbD_zero]
    | true => rw [if_pos rfl, BitVec.getLsbD_allOnes, decide_eq_true hk]
  have hquotient : -1 ≤ v.toInt / 2 ^ (31 - e) ∧ v.toInt / 2 ^ (31 - e) < 1 := by
    have hint : (v.sshiftRight (31 - e)).toInt = v.toInt / 2 ^ (31 - e) := by
      rw [BitVec.toInt_sshiftRight, Int.shiftRight_eq_div_pow]
      push_cast
      rfl
    rw [← hint, hshift]
    cases v.getLsbD 31 <;> decide
  have hpos : (0 : Int) < 2 ^ (31 - e) := by positivity
  constructor
  · have hlo := (Int.le_ediv_iff_mul_le hpos).1 hquotient.1
    omega
  · have hhi := (Int.ediv_lt_iff_lt_mul hpos).1 hquotient.2
    omega

/-- Shifting out redundant sign bits multiplies the value. -/
theorem toInt_shiftLeft_of_redundant {v : BitVec 32} {e : Nat} (h : RedundantSignBits v e) :
    (v <<< e).toInt = v.toInt * 2 ^ e := by
  obtain ⟨hlo, hhi⟩ := toInt_bounds_of_redundant h
  have hpow : (2 : Int) ^ (31 - e) * 2 ^ e = 2 ^ 31 := by
    rw [← pow_add, Nat.sub_add_cancel h.1]
  have hpos : (0 : Int) < 2 ^ e := by positivity
  rw [shiftLeft_eq_ofInt, toInt_ofInt_32]
  · nlinarith
  · nlinarith

/-- Shifting out all redundant sign bits leaves one sign bit. -/
theorem normalised_shiftLeft_of_redundant {v : BitVec 32} {e : Nat} (h : RedundantSignBits v e) (hv : v ≠ 0) :
    Normalised (v <<< e) := by
  obtain ⟨he, hrun, hstop⟩ := h
  have hsign : (v <<< e).getLsbD 31 = v.getLsbD 31 := by
    rw [BitVec.getLsbD_shiftLeft, decide_eq_true (by decide : 31 < 32), decide_eq_false (by omega), ← hrun e le_rfl]
    rfl
  unfold Normalised
  rw [hsign, BitVec.getLsbD_shiftLeft, decide_eq_true (by decide : 30 < 32), Bool.true_and]
  by_cases hlt : e < 31
  · rw [decide_eq_false (by omega), Bool.not_false, Bool.true_and]
    exact (hstop hv hlt).symm
  · rw [decide_eq_true (by omega), Bool.not_true, Bool.false_and]
    intro hzero
    apply hv
    apply BitVec.eq_of_getLsbD_eq
    intro k hk
    have hbit := hrun (31 - k) (by omega)
    rw [show 31 - (31 - k) = k by omega] at hbit
    rw [hbit, hzero]
    exact BitVec.getLsbD_zero.symm

/-! ## Counting them -/

/-- Two halves of which the upper one has a bit unlike its sign. -/
theorem redundantSignBits_of_high {hi : Word} (lo : Word) (h : signRun hi < 16) :
    RedundantSignBits (hi ++ lo) (signRun hi - 1) := by
  obtain ⟨-, hrun, hstop⟩ := leadingRun_signRun hi
  have hpos := signRun_pos hi
  have hsign : (hi ++ lo : BitVec 32).getLsbD 31 = hi.getLsbD 15 := getLsbD_append_word hi lo 31
  refine ⟨by omega, fun j hj => ?_, fun _ _ => ?_⟩
  · rw [hsign, getLsbD_append_word, if_neg (by omega), show 31 - j - 16 = 15 - j by omega]
    exact hrun j (by omega)
  · rw [hsign, getLsbD_append_word, if_neg (by omega), show 30 - (signRun hi - 1) - 16 = 15 - signRun hi by omega]
    exact hstop h

/-- Every bit of a word whose run of sign bits is the whole word. -/
theorem getLsbD_of_signRun_eq {v : Word} (h : signRun v = 16) {k : Nat} (hk : k < 16) : v.getLsbD k = v.getLsbD 15 := by
  have hbit := (leadingRun_signRun v).2.1 (15 - k) (by omega)
  rwa [show 15 - (15 - k) = k by omega] at hbit

/-- Two halves of which the upper one is all sign: the count goes on in the lower one. -/
theorem redundantSignBits_of_low {hi : Word} (lo : Word) (h : signRun hi = 16) :
    RedundantSignBits (hi ++ lo) (15 + leadRun lo (hi.getLsbD 15) 16) := by
  obtain ⟨hle, hrun, hstop⟩ := leadingRun_leadRun lo (hi.getLsbD 15)
  have hsign : (hi ++ lo : BitVec 32).getLsbD 31 = hi.getLsbD 15 := getLsbD_append_word hi lo 31
  refine ⟨by omega, fun j hj => ?_, fun _ hlt => ?_⟩
  · rw [hsign, getLsbD_append_word]
    by_cases hlow : 31 - j < 16
    · rw [if_pos hlow, show 31 - j = 15 - (j - 16) by omega]
      exact hrun _ (by omega)
    · rw [if_neg hlow]
      exact getLsbD_of_signRun_eq h (by omega)
  · rw [hsign, getLsbD_append_word, if_pos (by omega),
      show 30 - (15 + leadRun lo (hi.getLsbD 15) 16) = 15 - leadRun lo (hi.getLsbD 15) 16 by omega]
    exact hstop (by omega)

/-- A word above a lower half of 0. -/
theorem redundantSignBits_of_word (v : Word) : RedundantSignBits (v ++ 0#16) (signRun v - 1) := by
  have hle := signRun_le v
  by_cases h : signRun v < 16
  · exact redundantSignBits_of_high 0#16 h
  · have hall : signRun v = 16 := by omega
    have hsign : (v ++ 0#16 : BitVec 32).getLsbD 31 = v.getLsbD 15 := getLsbD_append_word v 0#16 31
    rw [hall]
    refine ⟨by decide, fun j hj => ?_, fun hne _ hbit => hne ?_⟩
    · rw [hsign, getLsbD_append_word, if_neg (by omega)]
      exact getLsbD_of_signRun_eq hall (by omega)
    · rw [hsign, getLsbD_append_word, if_pos (by decide), BitVec.getLsbD_zero] at hbit
      apply BitVec.eq_of_getLsbD_eq
      intro k hk
      rw [getLsbD_append_word]
      by_cases hlow : k < 16
      · rw [if_pos hlow]
        rfl
      · rw [if_neg hlow, getLsbD_of_signRun_eq hall (by omega), ← hbit]
        exact BitVec.getLsbD_zero.symm

/-! ## The normalisations -/

/-- NORM: the array by the negated SE (R162). -/
theorem exec_norm_eq_srEnd (x : Sxop) (h : HiLo) (o : Bool) (s : State) : exec (.norm x h o) s =
    .next (s.srEnd o (shiftArray (s.readSxop x) (-s.bank.se.toInt) h (normExt h s.astat.ac))) := rfl

/-- No shifter input is SE, nor SS. -/
theorem readSxop_expEnd (s : State) (e : BitVec 8) (ss : Bool) (x : Sxop) :
    (s.expEnd e ss).readSxop x = s.readSxop x := by
  cases x <;> simp only [State.readSxop, State.expEnd_bank, Bank.mr2Bus]

/-- Under HI a left shift brings in no extension bit. -/
theorem shiftArray_hi_left (v : Word) (n : Nat) (ext : Bool) :
    shiftArray v n .hi ext = (v ++ 0#16 : BitVec 32) <<< n := by
  have hzero : shiftArray 0#16 n .lo false = 0#32 := by
    apply BitVec.eq_of_getLsbD_eq
    intro k hk
    simp [getLsbD_shiftArray, arrayBit]
  rw [← shiftArray_halves_left v 0#16 n ext, hzero, BitVec.zero_or]

/-- Normalising a word by its own exponent scales it and leaves one sign bit. -/
theorem normalise_word (v : Word) (ext : Bool) :
    (shiftArray v (-(-((signRun v : Int) - 1))) .hi ext).toInt = v.toInt * 2 ^ (16 + (signRun v - 1)) ∧
      (v ≠ 0 → Normalised (shiftArray v (-(-((signRun v : Int) - 1))) .hi ext)) := by
  have hpos := signRun_pos v
  have hcode : -(-((signRun v : Int) - 1)) = ((signRun v - 1 : Nat) : Int) := by omega
  have hredundant := redundantSignBits_of_word v
  rw [hcode, shiftArray_hi_left]
  constructor
  · rw [toInt_shiftLeft_of_redundant hredundant, toInt_append_word, pow_add, ← mul_assoc]
    simp
  · intro hv
    refine normalised_shiftLeft_of_redundant hredundant fun hzero => hv ?_
    have hint := congrArg BitVec.toInt hzero
    rw [toInt_append_word] at hint
    apply BitVec.eq_of_toInt_eq
    simpa using hint

/-- Settles O47: NORM (HI) shifts out the redundant sign bits that EXP (HI) counted. -/
theorem singlePrecisionNormalisation : Obligations.SinglePrecisionNormalisation := by
  intro x s
  have hpos := signRun_pos (s.readSxop x)
  have hle := signRun_le (s.readSxop x)
  have hse := toInt_ofInt_expHiOf (s.readSxop x)
  obtain ⟨hint, hnormalised⟩ := normalise_word (s.readSxop x) s.astat.ac
  refine ⟨_, _, exec_expHi_eq x s, exec_norm_eq_srEnd .., ?_⟩
  rw [State.srEnd_bank, Bank.setSr_sr, if_neg Bool.false_ne_true, readSxop_expEnd, State.expEnd_bank, State.expEnd_astat]
  dsimp only [normExt]
  rw [hse]
  refine ⟨by omega, by omega, ?_, hnormalised⟩
  rw [hint, show (16 - -((signRun (s.readSxop x) : Int) - 1)).toNat = 16 + (signRun (s.readSxop x) - 1) by omega]

/-- A write of SE reaches no shifter input. -/
theorem readSxop_setBank_se (s : State) (e : BitVec 8) (x : Sxop) :
    (s.setBank { s.bank with se := e }).readSxop x = s.readSxop x := by
  cases x <;> simp only [State.readSxop, State.setBank_bank, Bank.mr2Bus]

/-- EXP (HI) and EXP (LO) of two halves count the redundant sign bits of the value they make. -/
theorem exec_exp_halves (xh xl : Sxop) (s : State) : ∃ t1 t2, ∃ e : Nat,
    exec (.expHi xh) s = .next t1 ∧ exec (.expLo xl) t1 = .next t2 ∧ t2.bank.se.toInt = -e ∧
      (∀ x, t2.readSxop x = s.readSxop x) ∧ RedundantSignBits (s.readSxop xh ++ s.readSxop xl) e := by
  have hpos := signRun_pos (s.readSxop xh)
  have hle := signRun_le (s.readSxop xh)
  have hse := toInt_ofInt_expHiOf (s.readSxop xh)
  by_cases hall : signRun (s.readSxop xh) = 16
  · refine ⟨_, _, _, exec_expHi_eq xh s, exec_expLo_of_se xl _ ?_, ?_, fun x => ?_, redundantSignBits_of_low _ hall⟩
    · rw [State.expEnd_bank, hse, hall]
      rfl
    · rw [State.setBank_bank, readSxop_expEnd, State.expEnd_astat, toInt_ofInt_expLoOf]
      dsimp only
      omega
    · exact (readSxop_setBank_se ..).trans (readSxop_expEnd ..)
  · refine ⟨_, _, _, exec_expHi_eq xh s, exec_expLo_of_ne xl _ ?_, ?_, readSxop_expEnd _ _ _,
      redundantSignBits_of_high _ (by omega)⟩
    · rw [State.expEnd_bank, hse]
      omega
    · rw [State.expEnd_bank, hse]
      omega

/-- NORM (HI) and NORM (LO) of two halves, ORed, shift the value they make left by minus SE, which they keep. -/
theorem exec_norm_halves (xh : Sxop) {xl : Sxop} {t : State} {e : Nat} (hxl : notSr xl = true)
    (hse : t.bank.se.toInt = -e) : ∃ t3 t4,
      exec (.norm xh .hi false) t = .next t3 ∧ exec (.norm xl .lo true) t3 = .next t4 ∧
        t4.bank.se = t.bank.se ∧ t4.bank.sr = (t.readSxop xh ++ t.readSxop xl) <<< e := by
  refine ⟨_, _, exec_norm_eq_srEnd .., exec_norm_eq_srEnd .., ?_, ?_⟩
  · rw [State.srEnd_bank, Bank.setSr_se, State.srEnd_bank, Bank.setSr_se]
  · rw [readSxop_srEnd _ _ _ _ hxl, State.srEnd_bank, Bank.setSr_sr, if_pos rfl, State.srEnd_bank, Bank.setSr_sr,
      Bank.setSr_se, if_neg Bool.false_ne_true]
    dsimp only [normExt]
    rw [hse, Int.neg_neg, BitVec.or_comm]
    exact shiftArray_halves_left ..

/-- Settles O48: the four steps shift the value left by its redundant sign bits. -/
theorem doublePrecisionNormalisation : Obligations.DoublePrecisionNormalisation := by
  intro xh xl s hxl
  obtain ⟨t1, t2, e, hexpHi, hexpLo, hse, hread, hredundant⟩ := exec_exp_halves xh xl s
  obtain ⟨t3, t4, hnormHi, hnormLo, hkept, hsr⟩ := exec_norm_halves xh hxl hse
  rw [hread, hread] at hsr
  have hle := hredundant.1
  refine ⟨t1, t2, t3, t4, hexpHi, hexpLo, hnormHi, hnormLo, by omega, by omega, hkept, ?_, fun hv => ?_⟩
  · rw [hsr, toInt_shiftLeft_of_redundant hredundant, hse, Int.neg_neg, Int.toNat_natCast]
  · rw [hsr]
    exact normalised_shiftLeft_of_redundant hredundant hv

/-! ## An adder output that may have overflowed -/

/-- The adder's output is the exact sum: read as a signed word, or where it overflowed continued by the carry, which then
is not its bit 15. -/
theorem add16_exact {a b r : Word} {cin c v : Bool} (h : add16 a b cin = ⟨r, c, v⟩) :
    if v then (extended r c).toInt = a.toInt + b.toInt + cin.toNat ∧ r.getLsbD 15 ≠ c
    else r.toInt = a.toInt + b.toInt + cin.toNat := by
  have ha := a.isLt
  have hb := b.isLt
  have hcin := cin.toNat_lt
  rw [add16_eq] at h
  obtain ⟨rfl, rfl, rfl⟩ := AluOut.mk.inj h
  have hr : (a + b + BitVec.ofNat 16 cin.toNat).toNat = (a.toNat + b.toNat + cin.toNat) % 2 ^ 16 := by
    simp only [BitVec.toNat_add, BitVec.toNat_ofNat]
    omega
  rw [toInt_extended, ← BitVec.msb_eq_getLsbD_last, BitVec.msb_eq_decide, ne_eq, carry16, decide_eq_decide]
  simp only [outside16, decide_eq_true_eq, BitVec.toInt_eq_toNat_cond, hr]
  split <;> split <;> split <;> omega

/-- A word continued by a bit unlike its sign has fifteen redundant sign bits. -/
theorem redundantSignBits_extended {v : Word} {ext : Bool} (h : v.getLsbD 15 ≠ ext) :
    RedundantSignBits (extended v ext) 15 := by
  have hsign : (extended v ext).getLsbD 31 = ext := getLsbD_extended v ext (by decide)
  refine ⟨by decide, fun j hj => ?_, fun _ _ => ?_⟩
  · rw [hsign, getLsbD_extended _ _ (by omega), if_neg (by omega)]
  · rw [hsign, getLsbD_extended _ _ (by decide), if_pos (by decide)]
    exact h

/-- Shifting one place right under HI scales a word continued by a bit unlike its sign, and leaves one sign bit. -/
theorem normalise_overflowed {v : Word} {ext : Bool} (h : v.getLsbD 15 ≠ ext) :
    (shiftArray v (-1) .hi ext).toInt = (extended v ext).toInt * 2 ^ 15 ∧
      ((extended v ext).toInt ≠ 0 → Normalised (shiftArray v (-1) .hi ext)) := by
  have hredundant := redundantSignBits_extended h
  have hshift : shiftArray v (-1) .hi ext = extended v ext <<< 15 := shiftArray_eq_shift v (-1) .hi ext
  rw [hshift]
  refine ⟨toInt_shiftLeft_of_redundant hredundant, fun hz => normalised_shiftLeft_of_redundant hredundant fun hzero => ?_⟩
  rw [hzero] at hz
  exact hz rfl

/-- EXP (HIX) and NORM (HI) of AR after an addition leave in SR the exact sum times 2^(16 - SE). -/
def NormalisesExactly (t : State) (z : Int) : Prop :=
  ∃ u v, exec (.expHix .ar) t = .next u ∧ exec (.norm .ar .hi false) u = .next v ∧
    u.bank.se.toInt ≤ 1 ∧ v.bank.sr.toInt = z * 2 ^ (16 - u.bank.se.toInt).toNat ∧ (z ≠ 0 → Normalised v.bank.sr)

/-- Without an overflow AR is normalised as a word is. -/
theorem normalisesExactly_of_not_av {t : State} (hav : t.astat.av = false) :
    NormalisesExactly t t.bank.ar.toInt := by
  have hpos := signRun_pos t.bank.ar
  have hse := toInt_ofInt_expHiOf t.bank.ar
  obtain ⟨hint, hnormalised⟩ := normalise_word t.bank.ar t.astat.ac
  refine ⟨_, _, exec_expHix_of_not_av .ar t hav, exec_norm_eq_srEnd .., ?_⟩
  rw [State.srEnd_bank, Bank.setSr_sr, if_neg Bool.false_ne_true, readSxop_expEnd, State.expEnd_bank, State.expEnd_astat]
  dsimp only [normExt, State.readSxop]
  rw [hse]
  refine ⟨by omega, ?_, fun hz => hnormalised fun hzero => hz (by rw [hzero]; rfl)⟩
  rw [hint, show (16 - -((signRun t.bank.ar : Int) - 1)).toNat = 16 + (signRun t.bank.ar - 1) by omega]

/-- After an overflow AR is normalised as the word that the carry continues. -/
theorem normalisesExactly_of_av {t : State} (hav : t.astat.av = true) (h : t.bank.ar.getLsbD 15 ≠ t.astat.ac) :
    NormalisesExactly t (extended t.bank.ar t.astat.ac).toInt := by
  obtain ⟨hint, hnormalised⟩ := normalise_overflowed h
  refine ⟨_, _, exec_expHix_of_av .ar t hav, exec_norm_eq_srEnd .., ?_⟩
  rw [State.srEnd_bank, Bank.setSr_sr, if_neg Bool.false_ne_true, readSxop_expEnd, State.expEnd_bank, State.expEnd_astat]
  exact ⟨show (1#8).toInt ≤ 1 by decide, hint, hnormalised⟩

/-- With latch and saturation off, an adder function into AR leaves a state whose AR normalises to the exact sum. -/
theorem exec_normalisesExactly {s : State} {i : Instr} {a b : Word} {cin : Bool} (hdst : aluDst i = some .ar)
    (hlatch : s.mstat.getLsbD 2 = false) (hsat : s.mstat.getLsbD 3 = false) (hout : aluOut s i = add16 a b cin) :
    ∃ t, exec i s = .next t ∧ NormalisesExactly t (a.toInt + b.toInt + cin.toNat) := by
  obtain ⟨⟨r, c, v⟩, hsum⟩ : ∃ o, add16 a b cin = o := ⟨_, rfl⟩
  rw [hsum] at hout
  obtain ⟨t, hexec, hbank, hastat, -⟩ := aluResult_of_aluOut hdst hout rfl
  have har : t.bank.ar = r := by rw [hbank, hsat]; rfl
  have hac : t.astat.ac = c := by rw [hastat]
  have hav : t.astat.av = v := by rw [hastat, hlatch, Bool.false_and, Bool.or_false]
  have hexact := add16_exact hsum
  subst har hac
  refine ⟨t, hexec, ?_⟩
  cases v with
  | false =>
    rw [if_neg Bool.false_ne_true] at hexact
    exact hexact ▸ normalisesExactly_of_not_av hav
  | true =>
    obtain ⟨hint, hsign⟩ := (if_pos rfl).mp hexact
    exact hint ▸ normalisesExactly_of_av hav hsign

/-- Settles O49: each of the three functions is one adder pass, whose sum AR, continued by AC where AV is set, holds. -/
theorem overflowedResultNormalises : Obligations.OverflowedResultNormalises := by
  intro x y s hlatch hsat i z hmem
  simp only [List.mem_cons, Prod.mk.injEq, List.not_mem_nil, or_false] at hmem
  have hchain : ∀ {a b cin}, aluDst i = some .ar → aluOut s i = add16 a b cin →
      a.toInt + b.toInt + cin.toNat = z → ∃ t, exec i s = .next t ∧ NormalisesExactly t z :=
    fun hdst hout hz => hz ▸ exec_normalisesExactly hdst hlatch hsat hout
  obtain ⟨t, hexec, u, v, hrest⟩ : ∃ t, exec i s = .next t ∧ NormalisesExactly t z := by
    obtain ⟨rfl, rfl⟩ | ⟨rfl, rfl⟩ | ⟨rfl, rfl⟩ := hmem
    · exact hchain rfl rfl (by simp)
    · exact hchain rfl rfl (by simp only [toInt_not_word, Bool.toNat_true]; omega)
    · exact hchain rfl rfl (by simp only [toInt_not_word, Bool.toNat_true]; omega)
  exact ⟨t, u, v, hexec, hrest⟩

end Sys2Proof.Claims

end
